-- ==== Sys2Proof/Word.lean ====
section
/-! DEFINITION. The words of the machine, and the widths of 00_scope.md R5 (R9, R10). -/

namespace Sys2Proof

/-- REG_WIDTH: a V register has 8 bits (R5, R20). -/
abbrev Config.regWidth : Nat := 8

/-- I_WIDTH: the index register has 16 bits (R5, R24). -/
abbrev Config.iWidth : Nat := 16

/-- PC_WIDTH: the program counter has 16 bits (R5, R26). -/
abbrev Config.pcWidth : Nat := 16

/-- STACK_ENTRY_WIDTH: a stack entry has 16 bits (R5, R30; the spec's decision D8, log 8). -/
abbrev Config.stackEntryWidth : Nat := 16

/-- TIMER_WIDTH: a timer has 8 bits (R5, R33). -/
abbrev Config.timerWidth : Nat := 8

/-- A byte: a store cell, an immediate nn, and what a V register or a timer holds (R20, R33, R50, R82). -/
abbrev Byte := BitVec 8

/-- A 16-bit word: an instruction, and what I, PC or a stack entry holds (R24, R26, R30, R80). -/
abbrev Word := BitVec 16

/-- The 12-bit immediate nnn (R10, R82). -/
abbrev Addr12 := BitVec 12

/-- The row count n of DXYN, 0 to 15 (R82). -/
abbrev RowCount := Fin 16

end Sys2Proof
end

