-- ==== Sys2Proof/Config.lean ====
section
/-! DEFINITION. The parameters of 00_scope.md R5 that size the state, and the one free value
(44_random_keys_timers.md R150). The parameters that place things in the store (MEM_SIZE, PROGRAM_ORIGIN, GLYPH_BASE,
GLYPH_BYTES, MAX_IMAGE) stand in Machine/Params.lean, the widths in Word.lean. Every definition and statement names the
parameter, as R5 asks, because the spec's note calls the literals unaudited (D10, log 21). -/

namespace Sys2Proof

/-- FREE VALUE: the byte `RandByte()` yields at the `k`-th execution of CXNN (R150, U1, log 1). It has no body, so
nothing can be proved of its value; a claim about CXNN holds for every byte. -/
opaque Config.randByte : Nat → Byte

/-- NUM_REGS: the V registers (R5, R20). -/
abbrev Config.numRegs : Nat := 16

/-- The index of a V register: the value of an x or y field (R20, R82). -/
abbrev RegIdx := Fin Config.numRegs

/-- FLAG_REG: VF is V[15] (R5, R22). -/
abbrev Config.flagReg : RegIdx := 15

/-- INSTR_BYTES: every instruction is two bytes (R5, R80). -/
abbrev Config.instrBytes : Nat := 2

/-- STACK_DEPTH: the return addresses the stack holds (R5, R30). -/
abbrev Config.stackDepth : Nat := 16

/-- FB_W: the framebuffer's columns (R5, R36). -/
abbrev Config.fbWidth : Nat := 64

/-- FB_H: the framebuffer's rows (R5, R36). -/
abbrev Config.fbHeight : Nat := 32

/-- The row of a framebuffer cell (R36). -/
abbrev FbRow := Fin Config.fbHeight

/-- The column of a framebuffer cell (R36). -/
abbrev FbCol := Fin Config.fbWidth

/-- NUM_KEYS: the key slots (R5, R38). -/
abbrev Config.numKeys : Nat := 16

/-- The index of a key (R38). -/
abbrev KeyIdx := Fin Config.numKeys

end Sys2Proof
end

