-- ==== Sys2Proof/Machine/Params.lean ====
section
/-! DEFINITION. The parameters of 00_scope.md R5 that place things in the store, and the store's content after
construction (20_memory.md R57, R60). The values are the spec's; its note calls the literals unaudited (D10, log 21). -/

namespace Sys2Proof.Machine

/-- MEM_SIZE: the store has 4096 bytes (R50). -/
def memSize : Nat := 4096

/-- PROGRAM_ORIGIN: where an image is loaded and where PC starts (R26, R58). -/
def programOrigin : Word := 0x200#16

/-- GLYPH_BASE: the address of glyph 0 (R57, R143). -/
def glyphBase : Nat := 0x050

/-- GLYPH_BYTES: each glyph occupies five bytes (R57). -/
def glyphBytes : Nat := 5

/-- Where glyph `d` begins (R57, R143). -/
def glyphOffset (d : Nat) : Nat := glyphBase + d * glyphBytes

/-- MAX_IMAGE: the largest image `loadImage` takes (R59). -/
def maxImage : Nat := memSize - programOrigin.toNat

/-- The 80 bytes of the glyph table, glyph 0 first, top row first (R57).
PRESUMED: the bytes are the spec's general-knowledge passage G1, not in its source (log 2). Unsafe for claims about
which pixels a glyph lights. -/
def glyphTable : List Byte :=
  [0xF0, 0x90, 0x90, 0x90, 0xF0,   0x20, 0x60, 0x20, 0x20, 0x70,
   0xF0, 0x10, 0xF0, 0x80, 0xF0,   0xF0, 0x10, 0xF0, 0x10, 0xF0] ++
  [0x90, 0x90, 0xF0, 0x10, 0x10,   0xF0, 0x80, 0xF0, 0x10, 0xF0,
   0xF0, 0x80, 0xF0, 0x90, 0xF0,   0xF0, 0x10, 0x20, 0x40, 0x40] ++
  [0xF0, 0x90, 0xF0, 0x90, 0xF0,   0xF0, 0x90, 0xF0, 0x10, 0xF0,
   0xF0, 0x90, 0xF0, 0x90, 0x90,   0xE0, 0x90, 0xE0, 0x90, 0xE0] ++
  [0xF0, 0x80, 0x80, 0x80, 0xF0,   0xE0, 0x90, 0x90, 0x90, 0xE0,
   0xF0, 0x80, 0xF0, 0x80, 0xF0,   0xF0, 0x80, 0xF0, 0x80, 0x80]

/-- What the constructed store holds at `a`: the glyph table at GLYPH_BASE, 0 everywhere else (R60). This is what an
address that the memory does not list reads as. -/
def initialByte (a : Nat) : Byte :=
  if a < glyphBase then 0 else glyphTable.getD (a - glyphBase) 0

end Sys2Proof.Machine
end

