-- ==== Sys2Proof/Machine/State.lean ====
section
/-! DEFINITION. The machine's state as plain data: every piece of state of 10_state.md, the store, the diagnostics
channel, and one field of the model's own that indexes the free value. -/

namespace Sys2Proof.Machine

/-- The direction of a store access (60_exceptions.md R186). -/
inductive Access where
  | read
  | write
  deriving DecidableEq, Repr

/-- One event of the diagnostics channel (R184, R186). Payloads are the spec's decision D13 (log 10). -/
inductive Diag where
  /-- A fetched word matches no pattern (R88): the word, and the PC it was fetched at. -/
  | unknownOpcode (w pc : Word)
  /-- 2NNN with the stack full (R103): its PC. -/
  | stackOverflow (pc : Word)
  /-- 00EE with no live entry (R101): its PC. -/
  | stackUnderflow (pc : Word)
  /-- A byte access at an address the store does not have (R52, R53): the address, not reduced (R54). -/
  | storeBounds (kind : Access) (a : Nat)
  deriving DecidableEq, Repr

/-- FB: FB_H rows of FB_W one-bit cells, row-major, top-left origin (R36). -/
abbrev Framebuffer := Vector (Vector Bool Config.fbWidth) Config.fbHeight

/-- The store: the cells that differ from `initialByte`, in strictly rising order of address (log 15). -/
abbrev Memory := List Host.Cell

/-- The whole machine. -/
structure State where
  /-- V0 to VF (R20); VF is the one at FLAG_REG (R22). -/
  v     : Vector (BitVec Config.regWidth) Config.numRegs
  /-- The index register I (R24). -/
  i     : BitVec Config.iWidth
  /-- The program counter: between steps, the address of the next instruction's high byte (R26). -/
  pc    : BitVec Config.pcWidth
  /-- SP: the number of live stack entries, 0 to STACK_DEPTH (R30). -/
  sp    : Fin (Config.stackDepth + 1)
  /-- STACK; the live entries are those below SP, the rest are dead (R30, R31). -/
  stack : Vector (BitVec Config.stackEntryWidth) Config.stackDepth
  /-- The delay timer (R33). -/
  dt    : BitVec Config.timerWidth
  /-- The sound timer (R33). -/
  st    : BitVec Config.timerWidth
  /-- The framebuffer (R36). -/
  fb    : Framebuffer
  /-- KEYS: true is pressed (R38). -/
  keys  : Vector Bool Config.numKeys
  /-- The store (R40, R50). -/
  mem   : Memory
  /-- The diagnostics channel: the events emitted so far, oldest first (R40, R184). -/
  diags : List Diag
  /-- THE MODEL'S OWN: how many random bytes CXNN has drawn; the index of the next free value (R150, log 1). -/
  draws : Nat
  deriving DecidableEq, Repr

/-- Reasons a step stops for good. There are none: "No condition in the engine is fatal" (R180, R188), so nothing raises
one and the type is empty. -/
inductive Fault where
  deriving DecidableEq, Repr

/-- Reasons a step is refused. -/
inductive Refusal where
  /-- Raised by an arm of `exec` whose instruction has no meaning yet. No arm raises it: every instruction is modelled.
  Safe. -/
  | notModelled (mnemonic : String)
  deriving DecidableEq, Repr

/-- The machine right after the store is constructed (R60) and `reset()` has run (R42, R210), with no image loaded.
`diags` and `draws` are the model's choice (logs 10 and 1); every other value is R42's or R60's. -/
def State.reset : State :=
  { v     := Vector.replicate Config.numRegs 0
    i     := 0
    pc    := programOrigin
    sp    := 0
    stack := Vector.replicate Config.stackDepth 0
    dt    := 0
    st    := 0
    fb    := Vector.replicate Config.fbHeight (Vector.replicate Config.fbWidth false)
    keys  := Vector.replicate Config.numKeys false
    mem   := []
    diags := []
    draws := 0 }

end Sys2Proof.Machine
end

