-- ==== Sys2Proof/Machine/Ops.lean ====
section
/-! DEFINITION. The named operations over registers, store, stack, framebuffer and diagnostics that every rule uses
(00_scope.md R12), and the one shared recovery that stands here in the place of an exception (60_exceptions.md R186,
R188: no trap is taken, nothing is saved, control goes on with the next word). -/

namespace Sys2Proof.Machine

/-- The outcome of a step. -/
abbrev Result := Host.Outcome State Fault Refusal

/-! ## Registers and PC -/

/-- `V[x]` (R12). -/
def readReg (s : State) (x : RegIdx) : BitVec Config.regWidth := s.v.get x

/-- `V[x] <- b` (R12). No register is hardwired (R20). -/
def writeReg (s : State) (x : RegIdx) (b : BitVec Config.regWidth) : State := { s with v := s.v.set x.val b x.isLt }

/-- `I <- a` (R12). -/
def setI (s : State) (a : BitVec Config.iWidth) : State := { s with i := a }

/-- `PC <- a` (R12). -/
def setPc (s : State) (a : BitVec Config.pcWidth) : State := { s with pc := a }

/-- `(PC + k * INSTR_BYTES) mod 2^PC_WIDTH`: the address `k` words on (R27; the reduction is the spec's decision D3,
log 3). -/
def pcAfter (s : State) (k : Nat) : BitVec Config.pcWidth := s.pc + BitVec.ofNat Config.pcWidth (k * Config.instrBytes)

/-- `PC <- (PC + 2) mod 2^16`: go on with the next word (R27). -/
def advance (s : State) : State := setPc s (pcAfter s 1)

/-- `Skip(cond)` (41_skips.md R110). -/
def skipIf (c : Bool) (s : State) : State := setPc s (if c then pcAfter s 2 else pcAfter s 1)

/-! ## Timers -/

/-- `DT <- b`. -/
def setDt (s : State) (b : BitVec Config.timerWidth) : State := { s with dt := b }

/-- `ST <- b`. -/
def setSt (s : State) (b : BitVec Config.timerWidth) : State := { s with st := b }

/-! ## Diagnostics and recovery -/

/-- `diag d`: append one event; nothing is aborted (R12, R184). -/
def emit (s : State) (d : Diag) : State := { s with diags := s.diags ++ [d] }

/-- The recovery of a decode fault and of a stack fault: report it and go on with the next word (R88, R101, R103,
R186). Nothing is saved and no handler is entered (R188). -/
def recover (s : State) (d : Diag) : State := advance (emit s d)

/-! ## The store -/

/-- The byte at an address of the store: the listed one, else the constructed content (R52, R60). -/
def Memory.read : Memory → Nat → Byte
  | [], a => initialByte a
  | c :: m, a => if c.1 = a then c.2 else Memory.read m a

/-- Drop every cell at `a`. -/
def Memory.erase (m : Memory) (a : Nat) : Memory := m.filter (fun c => c.1 != a)

/-- Put a cell before the first one with a higher address. -/
def Memory.insert (a : Nat) (b : Byte) : Memory → Memory
  | [] => [(a, b)]
  | c :: m => if a < c.1 then (a, b) :: c :: m else c :: Memory.insert a b m

/-- `MEM[a] <- b`, keeping the canonical form: a byte equal to the constructed content is not listed. -/
def Memory.write (m : Memory) (a : Nat) (b : Byte) : Memory :=
  if b = initialByte a then Memory.erase m a else Memory.insert a b (Memory.erase m a)

/-- The addresses rise strictly, starting above `lo`. -/
def Memory.risingFrom : Nat → Memory → Bool
  | _, [] => true
  | lo, c :: m => decide (lo ≤ c.1) && Memory.risingFrom (c.1 + 1) m

/-- The canonical form: addresses rise strictly, every cell lies in the store, and none equals what an unlisted
address reads as (log 15). -/
def Memory.wf (m : Memory) : Bool :=
  Memory.risingFrom 0 m && m.all (fun c => decide (c.1 < memSize) && c.2 != initialByte c.1)

/-- `MemRead(a, 1)`: the byte, and the state with the bounds event if there is one (R52). -/
def memRead (s : State) (a : Nat) : Byte × State :=
  if a < memSize then (s.mem.read a, s) else (0, emit s (.storeBounds .read a))

/-- `MemWrite(a, 1, b)` (R53). -/
def memWrite (s : State) (a : Nat) (b : Byte) : State :=
  if a < memSize then { s with mem := s.mem.write a b } else emit s (.storeBounds .write a)

/-- Write `V[r]` to `base + r` for each `r` of the list, in its order (R145). -/
def storeRegs (base : Nat) : List RegIdx → State → State
  | [], s => s
  | r :: rs, s => storeRegs base rs (memWrite s (base + r.val) (readReg s r))

/-- Load `V[r]` from `base + r` for each `r` of the list, in its order (R146). -/
def loadRegs (base : Nat) : List RegIdx → State → State
  | [], s => s
  | r :: rs, s => loadRegs base rs (writeReg (memRead s (base + r.val)).2 r (memRead s (base + r.val)).1)

/-! ## The call stack (R30) -/

/-- `STACK[SP] <- a; SP <- SP + 1`, given a free entry (R103). -/
def push (s : State) (a : BitVec Config.stackEntryWidth) (h : s.sp.val < Config.stackDepth) : State :=
  { s with stack := s.stack.set s.sp.val a h, sp := ⟨s.sp.val + 1, by omega⟩ }

/-- `SP <- SP - 1; PC <- STACK[SP]`, given a live entry; the vacated entry keeps its value (R31, R101). -/
def popToPc (s : State) (h : 0 < s.sp.val) : State :=
  { s with pc := s.stack[s.sp.val - 1]'(by omega), sp := ⟨s.sp.val - 1, by omega⟩ }

/-! ## The framebuffer (R36) -/

/-- `FB[r][c]`. -/
def cell (fb : Framebuffer) (r : FbRow) (c : FbCol) : Bool := (fb.get r).get c

/-- `FB[r][c] <- FB[r][c] xor 1`. -/
def toggleCell (fb : Framebuffer) (r : FbRow) (c : FbCol) : Framebuffer :=
  fb.set r.val ((fb.get r).set c.val (!cell fb r c) c.isLt) r.isLt

/-- The framebuffer with every cell 0. -/
def clearFb : Framebuffer := Vector.replicate Config.fbHeight (Vector.replicate Config.fbWidth false)

/-- `FB <- f`. -/
def setFb (s : State) (f : Framebuffer) : State := { s with fb := f }

/-! ## The random source (R150) -/

/-- One draw is made: the next one is another free value (log 1). -/
def countDraw (s : State) : State := { s with draws := s.draws + 1 }

end Sys2Proof.Machine
end

