-- ==== Sys2Proof/Machine/Operands.lean ====
section
/-! DEFINITION. Operand forms: how a field or a register becomes the value, the address, the key or the list of
registers an instruction uses (30_encoding.md R82; 20_memory.md R54; 43_index_memory.md R142 to R146). -/

namespace Sys2Proof.Machine

/-- `zext_16(nnn)` (R82). -/
def zextAddr (nnn : Addr12) : Word := nnn.setWidth 16

/-- `zext_16(b)` of a register (R104, R141). -/
def zextByte (b : Byte) : Word := b.setWidth 16

/-- The effective address `I + k`, a natural number not reduced to 16 bits (R54; the spec's decision D4, log 4). -/
def effAddr (s : State) (k : Nat) : Nat := s.i.toNat + k

/-- V[0] to V[x], ascending: the registers of FX55 and FX65 (R145, R146). -/
def regsUpTo (x : RegIdx) : List RegIdx := (List.finRange Config.numRegs).filter (fun r => decide (r ≤ x))

/-- The key EX9E and EXA1 test: the low four bits of V[x] (R158; the spec's decision D6, log 6). -/
def keyIndex (b : Byte) : KeyIdx := (b.extractLsb' 0 4).toFin

/-- `KEYS[k] = 1` (R38). -/
def keyPressed (s : State) (k : KeyIdx) : Bool := s.keys.get k

/-- The least pressed key, if any (R154). -/
def firstKey (s : State) : Option KeyIdx := (List.finRange Config.numKeys).find? (keyPressed s)

/-- `GLYPH_BASE + V[x] * GLYPH_BYTES`, of the whole byte (R143). -/
def glyphAddr (b : Byte) : Word := BitVec.ofNat Config.iWidth (glyphOffset b.toNat)

/-- The decimal digits of a byte: hundreds, tens, units (R144). -/
def hundreds (b : Byte) : Byte := BitVec.ofNat 8 (b.toNat / 100)
@[inherit_doc hundreds]
def tens (b : Byte) : Byte := BitVec.ofNat 8 (b.toNat / 10 % 10)
@[inherit_doc hundreds]
def units (b : Byte) : Byte := BitVec.ofNat 8 (b.toNat % 10)

/-- The framebuffer row of a coordinate sum, modulo FB_H (45_display.md R163). -/
def rowOf (y : Nat) : FbRow := ⟨y % Config.fbHeight, Nat.mod_lt _ (by decide)⟩

/-- The framebuffer column of a coordinate sum, modulo FB_W (R163). -/
def colOf (x : Nat) : FbCol := ⟨x % Config.fbWidth, Nat.mod_lt _ (by decide)⟩

end Sys2Proof.Machine
end

