-- ==== Sys2Proof/Machine/Flags.lean ====
section
/-! DEFINITION. The values the flag register receives, always 0 or 1 (10_state.md R22), and the order in which a
flag-writing instruction writes its two registers (42_alu.md R121). -/

namespace Sys2Proof.Machine

/-- A condition as a flag value: 1 or 0. -/
def flag (c : Bool) : Byte := if c then 1 else 0

/-- 8XY4: carry out of bit 7 (R128). -/
def carryFlag (a b : Byte) : Byte := flag (decide (a.toNat + b.toNat > 2 ^ Config.regWidth - 1))

/-- 8XY5 and 8XY7: `a` is strictly greater than `b`, unsigned (R129, R131). -/
def greaterFlag (a b : Byte) : Byte := flag (decide (a.toNat > b.toNat))

/-- 8XY6: the bit shifted out at the bottom (R130). -/
def lowFlag (a : Byte) : Byte := flag (a.getLsbD 0)

/-- 8XYE: the bit shifted out at the top (R132). -/
def highFlag (a : Byte) : Byte := flag (a.getLsbD 7)

/-- `V[15] <- flag`, then `V[x] <- result`, so that the result stays when x = 15; then PC + 2.
Both values come from operands read before (R121; the spec's decision D5, log 5). -/
def writeFlagThenReg (s : State) (f : Byte) (x : RegIdx) (result : Byte) : State :=
  advance (writeReg (writeReg s Config.flagReg f) x result)

end Sys2Proof.Machine
end

