-- ==== Sys2Proof/Machine/Alu.lean ====
section
/-! DEFINITION. Register load, arithmetic, logic and shift (42_alu.md R120 to R134). -/

namespace Sys2Proof.Machine

/-- The shape all of them without a flag share: `V[x] <- b; PC <- PC + 2` (R120). -/
def loadReg (s : State) (x : RegIdx) (b : Byte) : State := advance (writeReg s x b)

/-- 6XNN (R122). -/
def execLdVxNn (x : RegIdx) (nn : Byte) (s : State) : Result := .next (loadReg s x nn)

/-- 7XNN (R123): wraps modulo 256, no flag. -/
def execAddVxNn (x : RegIdx) (nn : Byte) (s : State) : Result := .next (loadReg s x (readReg s x + nn))

/-- 8XY0 (R124). -/
def execLdVxVy (x y : RegIdx) (s : State) : Result := .next (loadReg s x (readReg s y))

/-- 8XY1 (R125). -/
def execOrVxVy (x y : RegIdx) (s : State) : Result := .next (loadReg s x (readReg s x ||| readReg s y))

/-- 8XY2 (R126). -/
def execAndVxVy (x y : RegIdx) (s : State) : Result := .next (loadReg s x (readReg s x &&& readReg s y))

/-- 8XY3 (R127). -/
def execXorVxVy (x y : RegIdx) (s : State) : Result := .next (loadReg s x (readReg s x ^^^ readReg s y))

/-- 8XY4 (R128). -/
def execAddVxVy (x y : RegIdx) (s : State) : Result :=
  .next (writeFlagThenReg s (carryFlag (readReg s x) (readReg s y)) x (readReg s x + readReg s y))

/-- 8XY5 (R129): the flag is a strict comparison, so equal operands give 0. -/
def execSubVxVy (x y : RegIdx) (s : State) : Result :=
  .next (writeFlagThenReg s (greaterFlag (readReg s x) (readReg s y)) x (readReg s x - readReg s y))

/-- 8XY6 (R130): V[x] is shifted in place; V[y] is not read. -/
def execShrVx (x _y : RegIdx) (s : State) : Result :=
  .next (writeFlagThenReg s (lowFlag (readReg s x)) x (readReg s x >>> 1))

/-- 8XY7 (R131). -/
def execSubnVxVy (x y : RegIdx) (s : State) : Result :=
  .next (writeFlagThenReg s (greaterFlag (readReg s y) (readReg s x)) x (readReg s y - readReg s x))

/-- 8XYE (R132): V[x] is shifted in place; V[y] is not read. -/
def execShlVx (x _y : RegIdx) (s : State) : Result :=
  .next (writeFlagThenReg s (highFlag (readReg s x)) x (readReg s x <<< 1))

end Sys2Proof.Machine
end

