-- ==== Sys2Proof/Machine/ControlFlow.lean ====
section
/-! DEFINITION. Jumps, call and return (40_control_flow.md R101 to R105). -/

namespace Sys2Proof.Machine

/-- 00EE (R101): pop the return address into PC; with no live entry, report and go on. -/
def execRet (s : State) : Result :=
  .next (if h : 0 < s.sp.val then popToPc s h else recover s (.stackUnderflow s.pc))

/-- 1NNN (R102). -/
def execJp (nnn : Addr12) (s : State) : Result := .next (setPc s (zextAddr nnn))

/-- 2NNN (R103): push PC + 2 and jump; with the stack full, report and go on without push or jump (C6). -/
def execCall (nnn : Addr12) (s : State) : Result :=
  .next (if h : s.sp.val < Config.stackDepth then setPc (push s (pcAfter s 1) h) (zextAddr nnn)
    else recover s (.stackOverflow s.pc))

/-- BNNN (R104): always V[0]; the sum is not reduced to 12 bits. -/
def execJpV0 (nnn : Addr12) (s : State) : Result := .next (setPc s (zextAddr nnn + zextByte (readReg s 0)))

end Sys2Proof.Machine
end

