-- ==== Sys2Proof/Machine/Display.lean ====
section
/-! DEFINITION. The sprite compositing unit and the display instructions (45_display.md R160 to R165). -/

namespace Sys2Proof.Machine

/-- 00E0 (R160). VF is not written. -/
def execCls (s : State) : Result := .next (advance (setFb s clearFb))

/-- One lit sprite bit at cell (r, c): record a collision if the cell is 1, then toggle it (R161). The pair is the
framebuffer and the collision so far. -/
def plot (p : Framebuffer × Bool) (r : FbRow) (c : FbCol) : Framebuffer × Bool :=
  (toggleCell p.1 r c, p.2 || cell p.1 r c)

/-- One sprite byte in row `r` from column sum `x` on, for the sprite columns of the list in its order; bit 7 is the
leftmost column (R161). A 0 bit does nothing. -/
def blitCols (b : Byte) (x : Nat) (r : FbRow) : List Nat → Framebuffer × Bool → Framebuffer × Bool
  | [], p => p
  | col :: cols, p => blitCols b x r cols (if b.getLsbD (7 - col) then plot p r (colOf (x + col)) else p)

/-- The sprite rows of the list, in its order: read the byte at `base + row`, then draw its eight columns
(R161, R165). -/
def blitRows (x y base : Nat) : List Nat → Bool → State → Bool × State
  | [], coll, s => (coll, s)
  | row :: rows, coll, s =>
    blitRows x y base rows
      (blitCols (memRead s (base + row)).1 x (rowOf (y + row)) (List.range 8) (s.fb, coll)).2
      (setFb (memRead s (base + row)).2
        (blitCols (memRead s (base + row)).1 x (rowOf (y + row)) (List.range 8) (s.fb, coll)).1)

/-- `Blit(x0, y0, n, base)`: the collision bit and the state after (R161). -/
def blit (x0 y0 : Byte) (n : RowCount) (base : Nat) (s : State) : Bool × State :=
  blitRows x0.toNat y0.toNat base (List.range n.val) false s

/-- DXYN (R162): both coordinates are read before VF is written, and VF is written always. -/
def execDrw (x y : RegIdx) (n : RowCount) (s : State) : Result :=
  .next (advance (writeReg (blit (readReg s x) (readReg s y) n (effAddr s 0) s).2 Config.flagReg
    (flag (blit (readReg s x) (readReg s y) n (effAddr s 0) s).1)))

end Sys2Proof.Machine
end

