-- ==== Sys2Proof/Machine/IndexMemory.lean ====
section
/-! DEFINITION. Index register and store transfers (43_index_memory.md R140 to R146). I is never changed by an access
(R142), and a byte outside the store does not stop the others (20_memory.md R63). -/

namespace Sys2Proof.Machine

/-- ANNN (R140). -/
def execLdINnn (nnn : Addr12) (s : State) : Result := .next (advance (setI s (zextAddr nnn)))

/-- FX1E (R141): 16-bit sum, no flag; the wrap at 2^16 is the spec's decision D9 (log 7). -/
def execAddIVx (x : RegIdx) (s : State) : Result := .next (advance (setI s (s.i + zextByte (readReg s x))))

/-- FX29 (R143). -/
def execLdFVx (x : RegIdx) (s : State) : Result := .next (advance (setI s (glyphAddr (readReg s x))))

/-- The three stores of FX33: hundreds, tens, units at I, I + 1, I + 2 (R144). -/
def storeDigits (s : State) (b : Byte) : State :=
  memWrite (memWrite (memWrite s (effAddr s 0) (hundreds b)) (effAddr s 1) (tens b)) (effAddr s 2) (units b)

/-- FX33 (R144). -/
def execLdBVx (x : RegIdx) (s : State) : Result := .next (advance (storeDigits s (readReg s x)))

/-- FX55 (R145). -/
def execLdMemVx (x : RegIdx) (s : State) : Result := .next (advance (storeRegs (effAddr s 0) (regsUpTo x) s))

/-- FX65 (R146). -/
def execLdVxMem (x : RegIdx) (s : State) : Result := .next (advance (loadRegs (effAddr s 0) (regsUpTo x) s))

end Sys2Proof.Machine
end

