-- ==== Sys2Proof/Machine/RandomKeysTimers.lean ====
section
/-! DEFINITION. Random number, keypad and timer instructions (44_random_keys_timers.md R150 to R159). -/

namespace Sys2Proof.Machine

/-- CXNN with the byte `r` drawn (R157): exactly one draw is made. Every `r` may occur (R150). -/
def rndWith (r : Byte) (x : RegIdx) (nn : Byte) (s : State) : State :=
  advance (countDraw (writeReg s x (r &&& nn)))

/-- CXNN (R157). The byte is a free value (log 1). -/
def execRndVxNn (x : RegIdx) (nn : Byte) (s : State) : Result := .next (rndWith (Config.randByte s.draws) x nn s)

/-- EX9E (R151, R158). -/
def execSkp (x : RegIdx) (s : State) : Result := .next (skipIf (keyPressed s (keyIndex (readReg s x))) s)

/-- EXA1 (R152, R158). -/
def execSknp (x : RegIdx) (s : State) : Result := .next (skipIf (!keyPressed s (keyIndex (readReg s x))) s)

/-- FX07 (R153). -/
def execLdVxDT (x : RegIdx) (s : State) : Result := .next (advance (writeReg s x s.dt))

/-- FX0A (R154): with no key pressed nothing changes, PC included, so that the next step fetches it again. -/
def execLdVxK (x : RegIdx) (s : State) : Result :=
  match firstKey s with
  | some k => .next (advance (writeReg s x (BitVec.ofNat 8 k.val)))
  | none => .next s

/-- FX15 (R155). -/
def execLdDTVx (x : RegIdx) (s : State) : Result := .next (advance (setDt s (readReg s x)))

/-- FX18 (R156). -/
def execLdSTVx (x : RegIdx) (s : State) : Result := .next (advance (setSt s (readReg s x)))

end Sys2Proof.Machine
end

