-- ==== Sys2Proof/Machine/Skips.lean ====
section
/-! DEFINITION. Conditional skips on register values (41_skips.md R110 to R114). -/

namespace Sys2Proof.Machine

/-- 3XNN (R111). -/
def execSeVxNn (x : RegIdx) (nn : Byte) (s : State) : Result := .next (skipIf (readReg s x == nn) s)

/-- 4XNN (R112). -/
def execSneVxNn (x : RegIdx) (nn : Byte) (s : State) : Result := .next (skipIf (readReg s x != nn) s)

/-- 5XY0 (R113). -/
def execSeVxVy (x y : RegIdx) (s : State) : Result := .next (skipIf (readReg s x == readReg s y) s)

/-- 9XY0 (R114). -/
def execSneVxVy (x y : RegIdx) (s : State) : Result := .next (skipIf (readReg s x != readReg s y) s)

end Sys2Proof.Machine
end

