-- ==== Sys2Proof/Syntax.lean ====
section
/-! DEFINITION. The 34 instructions, one constructor per row of spec/opcode_table.json, in the table's order
(30_encoding.md R86). Fields are typed exactly as wide as the encoding makes them (R82). -/

namespace Sys2Proof

/-- An instruction. Names follow the mnemonics of R86; the pattern is the name of record. -/
inductive Instr where
  /-- 00E0 CLS (R160) -/
  | cls
  /-- 00EE RET (R101) -/
  | ret
  /-- 1NNN JP nnn (R102) -/
  | jp (nnn : Addr12)
  /-- 2NNN CALL nnn (R103) -/
  | call (nnn : Addr12)
  /-- 3XNN SE Vx, nn (R111) -/
  | seVxNn (x : RegIdx) (nn : Byte)
  /-- 4XNN SNE Vx, nn (R112) -/
  | sneVxNn (x : RegIdx) (nn : Byte)
  /-- 5XY0 SE Vx, Vy (R113) -/
  | seVxVy (x y : RegIdx)
  /-- 6XNN LD Vx, nn (R122) -/
  | ldVxNn (x : RegIdx) (nn : Byte)
  /-- 7XNN ADD Vx, nn (R123) -/
  | addVxNn (x : RegIdx) (nn : Byte)
  /-- 8XY0 LD Vx, Vy (R124) -/
  | ldVxVy (x y : RegIdx)
  /-- 8XY1 OR Vx, Vy (R125) -/
  | orVxVy (x y : RegIdx)
  /-- 8XY2 AND Vx, Vy (R126) -/
  | andVxVy (x y : RegIdx)
  /-- 8XY3 XOR Vx, Vy (R127) -/
  | xorVxVy (x y : RegIdx)
  /-- 8XY4 ADD Vx, Vy (R128) -/
  | addVxVy (x y : RegIdx)
  /-- 8XY5 SUB Vx, Vy (R129) -/
  | subVxVy (x y : RegIdx)
  /-- 8XY6 SHR Vx; the y field is encoded and ignored (R130) -/
  | shrVx (x y : RegIdx)
  /-- 8XY7 SUBN Vx, Vy (R131) -/
  | subnVxVy (x y : RegIdx)
  /-- 8XYE SHL Vx; the y field is encoded and ignored (R132) -/
  | shlVx (x y : RegIdx)
  /-- 9XY0 SNE Vx, Vy (R114) -/
  | sneVxVy (x y : RegIdx)
  /-- ANNN LD I, nnn (R140) -/
  | ldINnn (nnn : Addr12)
  /-- BNNN JP V0, nnn (R104) -/
  | jpV0 (nnn : Addr12)
  /-- CXNN RND Vx, nn (R157) -/
  | rndVxNn (x : RegIdx) (nn : Byte)
  /-- DXYN DRW Vx, Vy, n (R162) -/
  | drw (x y : RegIdx) (n : RowCount)
  /-- EX9E SKP Vx (R151) -/
  | skp (x : RegIdx)
  /-- EXA1 SKNP Vx (R152) -/
  | sknp (x : RegIdx)
  /-- FX07 LD Vx, DT (R153) -/
  | ldVxDT (x : RegIdx)
  /-- FX0A LD Vx, K (R154) -/
  | ldVxK (x : RegIdx)
  /-- FX15 LD DT, Vx (R155) -/
  | ldDTVx (x : RegIdx)
  /-- FX18 LD ST, Vx (R156) -/
  | ldSTVx (x : RegIdx)
  /-- FX1E ADD I, Vx (R141) -/
  | addIVx (x : RegIdx)
  /-- FX29 LD F, Vx (R143) -/
  | ldFVx (x : RegIdx)
  /-- FX33 LD B, Vx (R144) -/
  | ldBVx (x : RegIdx)
  /-- FX55 LD [I], Vx (R145) -/
  | ldMemVx (x : RegIdx)
  /-- FX65 LD Vx, [I] (R146) -/
  | ldVxMem (x : RegIdx)
  deriving DecidableEq, Repr

end Sys2Proof
end

