-- ==== Sys2Proof/WellFormed.lean ====
section
/-! DEFINITION. What a well-formed pattern, opcode map and instruction are (30_encoding.md R82 to R84).
An instruction's fields have exactly the width of their encoding, so every term of `Instr` is well formed and the
check on terms refuses none; the checks that can refuse are those on patterns and on the opcode map. -/

namespace Sys2Proof

/-- A row's `mask` and `value` (the column "match"): a word is the row's when `w and mask = value` (R86). -/
structure Pattern where
  mask  : Word
  value : Word
  deriving DecidableEq, Repr

/-- The word selects this pattern (R83). -/
def Pattern.admits (p : Pattern) (w : Word) : Bool := w &&& p.mask == p.value

/-- A pattern requires no bit outside its mask (otherwise no word could match it). -/
def Pattern.wf (p : Pattern) : Bool := p.value &&& p.mask == p.value

/-- Two patterns require different values of some bit, so no word matches both (R84). -/
def Pattern.disjoint (p q : Pattern) : Bool := (p.value ^^^ q.value) &&& (p.mask &&& q.mask) != 0#16

/-- An opcode map is well formed: each pattern is, and they are pairwise disjoint (R84). -/
def Pattern.wfMap : List Pattern → Bool
  | [] => true
  | p :: ps => p.wf && ps.all p.disjoint && Pattern.wfMap ps

/-- Every value of every field is legal (R82), and the types hold no other value. -/
def Instr.wellFormed (_ : Instr) : Bool := true

end Sys2Proof
end

