-- ==== Sys2Proof/Decode.lean ====
section
/-! DEFINITION. The decoder, total on every word and on any bytes, and the encoder (30_encoding.md R80 to R89).
The opcode map is written once, as R86 prints it; decoding is R83: a word selects the row with `w and mask = match`. -/

namespace Sys2Proof

/-! ## Fields of a word (R10, R81, R82) -/

/-- `x = w[11:8]`. -/
def fieldX (w : Word) : RegIdx := (w.extractLsb' 8 4).toFin

/-- `y = w[7:4]`. -/
def fieldY (w : Word) : RegIdx := (w.extractLsb' 4 4).toFin

/-- `n = w[3:0]`. -/
def fieldN (w : Word) : RowCount := (w.extractLsb' 0 4).toFin

/-- `nn = w[7:0]`. -/
def fieldNn (w : Word) : Byte := w.extractLsb' 0 8

/-- `nnn = w[11:0]`. -/
def fieldNnn (w : Word) : Addr12 := w.extractLsb' 0 12

/-! ## The opcode map (R86) -/

/-- A row of the opcode map: its pattern, and the instruction a word of the row stands for. -/
structure OpcodeRow where
  pattern : Pattern
  build   : Word → Instr

/-- All 34 rows in R86's order. Every literal digit of a pattern is required (R83; the spec's decision D2, log 9). -/
def opcodeTable : List OpcodeRow :=
  [
    ⟨⟨0xFFFF#16, 0x00E0#16⟩, fun _ => .cls⟩,
    ⟨⟨0xFFFF#16, 0x00EE#16⟩, fun _ => .ret⟩,
    ⟨⟨0xF000#16, 0x1000#16⟩, fun w => .jp (fieldNnn w)⟩,
    ⟨⟨0xF000#16, 0x2000#16⟩, fun w => .call (fieldNnn w)⟩,
    ⟨⟨0xF000#16, 0x3000#16⟩, fun w => .seVxNn (fieldX w) (fieldNn w)⟩,
    ⟨⟨0xF000#16, 0x4000#16⟩, fun w => .sneVxNn (fieldX w) (fieldNn w)⟩,
    ⟨⟨0xF00F#16, 0x5000#16⟩, fun w => .seVxVy (fieldX w) (fieldY w)⟩,
    ⟨⟨0xF000#16, 0x6000#16⟩, fun w => .ldVxNn (fieldX w) (fieldNn w)⟩,
    ⟨⟨0xF000#16, 0x7000#16⟩, fun w => .addVxNn (fieldX w) (fieldNn w)⟩,
    ⟨⟨0xF00F#16, 0x8000#16⟩, fun w => .ldVxVy (fieldX w) (fieldY w)⟩,
    ⟨⟨0xF00F#16, 0x8001#16⟩, fun w => .orVxVy (fieldX w) (fieldY w)⟩,
    ⟨⟨0xF00F#16, 0x8002#16⟩, fun w => .andVxVy (fieldX w) (fieldY w)⟩,
    ⟨⟨0xF00F#16, 0x8003#16⟩, fun w => .xorVxVy (fieldX w) (fieldY w)⟩,
    ⟨⟨0xF00F#16, 0x8004#16⟩, fun w => .addVxVy (fieldX w) (fieldY w)⟩,
    ⟨⟨0xF00F#16, 0x8005#16⟩, fun w => .subVxVy (fieldX w) (fieldY w)⟩,
    ⟨⟨0xF00F#16, 0x8006#16⟩, fun w => .shrVx (fieldX w) (fieldY w)⟩,
    ⟨⟨0xF00F#16, 0x8007#16⟩, fun w => .subnVxVy (fieldX w) (fieldY w)⟩,
    ⟨⟨0xF00F#16, 0x800E#16⟩, fun w => .shlVx (fieldX w) (fieldY w)⟩,
    ⟨⟨0xF00F#16, 0x9000#16⟩, fun w => .sneVxVy (fieldX w) (fieldY w)⟩,
    ⟨⟨0xF000#16, 0xA000#16⟩, fun w => .ldINnn (fieldNnn w)⟩,
    ⟨⟨0xF000#16, 0xB000#16⟩, fun w => .jpV0 (fieldNnn w)⟩,
    ⟨⟨0xF000#16, 0xC000#16⟩, fun w => .rndVxNn (fieldX w) (fieldNn w)⟩,
    ⟨⟨0xF000#16, 0xD000#16⟩, fun w => .drw (fieldX w) (fieldY w) (fieldN w)⟩,
    ⟨⟨0xF0FF#16, 0xE09E#16⟩, fun w => .skp (fieldX w)⟩,
    ⟨⟨0xF0FF#16, 0xE0A1#16⟩, fun w => .sknp (fieldX w)⟩,
    ⟨⟨0xF0FF#16, 0xF007#16⟩, fun w => .ldVxDT (fieldX w)⟩,
    ⟨⟨0xF0FF#16, 0xF00A#16⟩, fun w => .ldVxK (fieldX w)⟩,
    ⟨⟨0xF0FF#16, 0xF015#16⟩, fun w => .ldDTVx (fieldX w)⟩,
    ⟨⟨0xF0FF#16, 0xF018#16⟩, fun w => .ldSTVx (fieldX w)⟩,
    ⟨⟨0xF0FF#16, 0xF01E#16⟩, fun w => .addIVx (fieldX w)⟩,
    ⟨⟨0xF0FF#16, 0xF029#16⟩, fun w => .ldFVx (fieldX w)⟩,
    ⟨⟨0xF0FF#16, 0xF033#16⟩, fun w => .ldBVx (fieldX w)⟩,
    ⟨⟨0xF0FF#16, 0xF055#16⟩, fun w => .ldMemVx (fieldX w)⟩,
    ⟨⟨0xF0FF#16, 0xF065#16⟩, fun w => .ldVxMem (fieldX w)⟩
  ]

/-! ## Decoding (R83, R88) -/

/-- Why bytes are not an instruction. -/
inductive DecodeError where
  /-- The word matches no pattern of R86: R88's decode fault. The engine recovers from it. -/
  | unknownOpcode (w : Word)
  /-- Fewer than two bytes are given. The engine never meets it: its fetch always yields two bytes (R100). -/
  | truncated
  deriving DecidableEq, Repr

/-- The instruction a 16-bit word stands for, or the decode fault. It depends on the word alone (R84). -/
def decodeWord (w : Word) : Except DecodeError Instr :=
  match opcodeTable.find? (fun r => r.pattern.admits w) with
  | some r => .ok (r.build w)
  | none => .error (.unknownOpcode w)

/-- The word of two fetched bytes, high byte first (20_memory.md R56). -/
def composeWord (hi lo : Byte) : Word := hi ++ lo

/-- The first instruction of a list of bytes as they lie in the store, and the bytes after it (R80). -/
def decodeBytes : List Byte → Except DecodeError (Instr × List Byte)
  | hi :: lo :: rest => (decodeWord (composeWord hi lo)).map (fun i => (i, rest))
  | _ => .error .truncated

/-! ## Encoding (R81, R86) -/

/-- A register or row-count field as its four bits. -/
def nibble (x : Fin 16) : BitVec 4 := BitVec.ofFin x

/-- Format A: op, nnn. -/
def formatA (op : BitVec 4) (nnn : Addr12) : Word := op ++ nnn

/-- Format XI: op, x, nn. -/
def formatXI (op : BitVec 4) (x : RegIdx) (nn : Byte) : Word := op ++ nibble x ++ nn

/-- Format XY: op, x, y, fn4. -/
def formatXY (op : BitVec 4) (x y : RegIdx) (fn4 : BitVec 4) : Word := op ++ nibble x ++ nibble y ++ fn4

/-- Format D: op, x, y, n. -/
def formatD (op : BitVec 4) (x y : RegIdx) (n : RowCount) : Word := op ++ nibble x ++ nibble y ++ nibble n

/-- Format XF: op, x, fn8. -/
def formatXF (op : BitVec 4) (x : RegIdx) (fn8 : BitVec 8) : Word := op ++ nibble x ++ fn8

/-- The word of an instruction. Format Z is the fixed word itself (R81). -/
def encode : Instr → Word
  | .cls => 0x00E0#16
  | .ret => 0x00EE#16
  | .jp nnn => formatA 0x1#4 nnn
  | .call nnn => formatA 0x2#4 nnn
  | .seVxNn x nn => formatXI 0x3#4 x nn
  | .sneVxNn x nn => formatXI 0x4#4 x nn
  | .seVxVy x y => formatXY 0x5#4 x y 0x0#4
  | .ldVxNn x nn => formatXI 0x6#4 x nn
  | .addVxNn x nn => formatXI 0x7#4 x nn
  | .ldVxVy x y => formatXY 0x8#4 x y 0x0#4
  | .orVxVy x y => formatXY 0x8#4 x y 0x1#4
  | .andVxVy x y => formatXY 0x8#4 x y 0x2#4
  | .xorVxVy x y => formatXY 0x8#4 x y 0x3#4
  | .addVxVy x y => formatXY 0x8#4 x y 0x4#4
  | .subVxVy x y => formatXY 0x8#4 x y 0x5#4
  | .shrVx x y => formatXY 0x8#4 x y 0x6#4
  | .subnVxVy x y => formatXY 0x8#4 x y 0x7#4
  | .shlVx x y => formatXY 0x8#4 x y 0xE#4
  | .sneVxVy x y => formatXY 0x9#4 x y 0x0#4
  | .ldINnn nnn => formatA 0xA#4 nnn
  | .jpV0 nnn => formatA 0xB#4 nnn
  | .rndVxNn x nn => formatXI 0xC#4 x nn
  | .drw x y n => formatD 0xD#4 x y n
  | .skp x => formatXF 0xE#4 x 0x9E#8
  | .sknp x => formatXF 0xE#4 x 0xA1#8
  | .ldVxDT x => formatXF 0xF#4 x 0x07#8
  | .ldVxK x => formatXF 0xF#4 x 0x0A#8
  | .ldDTVx x => formatXF 0xF#4 x 0x15#8
  | .ldSTVx x => formatXF 0xF#4 x 0x18#8
  | .addIVx x => formatXF 0xF#4 x 0x1E#8
  | .ldFVx x => formatXF 0xF#4 x 0x29#8
  | .ldBVx x => formatXF 0xF#4 x 0x33#8
  | .ldMemVx x => formatXF 0xF#4 x 0x55#8
  | .ldVxMem x => formatXF 0xF#4 x 0x65#8
/-- An instruction's bytes in the order they are stored: high byte at the lower address (R56, R80). -/
def encodeBytes (i : Instr) : List Byte := [(encode i).extractLsb' 8 8, (encode i).extractLsb' 0 8]

/-! ## The table's numbering of bits -/

/-- The two bytes, in store order, of an instruction whose lowest `nbits` bits are `w` and whose other bits are 0. -/
def tableBytes (nbits w : Nat) : List Byte :=
  [(BitVec.ofNat 16 (w % 2 ^ nbits)).extractLsb' 8 8, (BitVec.ofNat 16 (w % 2 ^ nbits)).extractLsb' 0 8]

/-- What the decoder reads from an instruction whose bits are `w`, numbered as spec/opcode_table.json numbers them. -/
def decodeTableWord (nbits w : Nat) : Option Instr :=
  match decodeBytes (tableBytes nbits w) with
  | .ok (i, _) => some i
  | .error _ => none

end Sys2Proof
end

