-- ==== Sys2Proof/Machine/Fetch.lean ====
section
/-! DEFINITION. Instruction fetch, the decode fault, and placing a word where the fetch reads (40_control_flow.md R100,
20_memory.md R56, 30_encoding.md R88). -/

namespace Sys2Proof.Machine

/-- Fetch: two byte reads at PC and PC + 1, high byte first, the sum not reduced; the word, and the state with the bounds
events of the reads (R100, R54, R62). PC is not changed. -/
def fetch (s : State) : Word × State :=
  (composeWord (memRead s s.pc.toNat).1 (memRead (memRead s s.pc.toNat).2 (s.pc.toNat + 1)).1,
   (memRead (memRead s s.pc.toNat).2 (s.pc.toNat + 1)).2)

/-- A fetched word that matches no pattern (R88): report it with its PC and advance by 2; nothing else changes. -/
def decodeFault (w : Word) (s : State) : State := recover s (.unknownOpcode w s.pc)

/-- Put bytes into the store from `a` on. -/
def placeBytes (m : Memory) : Nat → List Byte → Memory
  | _, [] => m
  | a, b :: bs => placeBytes (m.write a b) (a + 1) bs

/-- Where a word can be placed for the next fetch: PC, or PROGRAM_ORIGIN where the store does not hold both bytes
at PC (log 11). -/
def fetchPlace (s : State) : Word := if s.pc.toNat + 1 < memSize then s.pc else programOrigin

/-- The state with the bytes where the next fetch reads them. -/
def placeAtFetch (s : State) (bytes : List Byte) : State :=
  { s with pc := fetchPlace s, mem := placeBytes s.mem (fetchPlace s).toNat bytes }

end Sys2Proof.Machine
end

