-- ==== Sys2Proof/Machine/Step.lean ====
section
/-! DEFINITION. One execution cycle of the engine, `step()` (40_control_flow.md R100). -/

namespace Sys2Proof.Machine

/-- `step()` (R100): fetch, decode, execute; a word that is no instruction is recovered from (R88). -/
def step (s : State) : Host.Outcome State Fault Refusal :=
  match decodeWord (fetch s).1 with
  | .ok i => exec i (fetch s).2
  | .error _ => .next (decodeFault (fetch s).1 (fetch s).2)

/-- `s` with the instruction whose bits are `w` stored where `step` fetches next. PC is left as it is wherever the store
holds both bytes at it (log 11). -/
def State.withFetchWord (s : State) (nbits w : Nat) : State := placeAtFetch s (tableBytes nbits w)

end Sys2Proof.Machine
end

