-- ==== Sys2Proof/Machine/Driver.lean ====
section
/-! DEFINITION. The operations of the other agents, the result of `step()`, and boot (00_scope.md R6 to R8; 10_state.md
R34, R37, R39; 20_memory.md R59; 70_reset_and_hazards.md R210, R214, R216). Operations never overlap (R6): a run is a
list of them, in any order and number (R220; log 12). -/

namespace Sys2Proof.Machine

/-! ## The result of a step -/

/-- The one result a step has besides the new state (R8). -/
inductive StepResult where
  | completed
  | waiting
  deriving DecidableEq, Repr

/-- The result of executing `i` at `s`: `waiting` exactly when it is FX0A and no key is pressed (R8, R154). -/
def execResult (i : Instr) (s : State) : StepResult :=
  match i, firstKey s with
  | .ldVxK _, none => .waiting
  | _, _ => .completed

/-- The result `step()` returns at `s` (R8, R88). It is no state (R42), so it is a function of the state before
(log 13). -/
def stepResult (s : State) : StepResult :=
  match decodeWord (fetch s).1 with
  | .ok i => execResult i (fetch s).2
  | .error _ => .completed

/-! ## Timers, keys, framebuffer, reset -/

/-- A timer after one tick: one less, floor at 0 (R33, R34). -/
def tickDown (t : BitVec Config.timerWidth) : BitVec Config.timerWidth := if t.toNat > 0 then t - 1 else t

/-- `tick_timers()` (R34). -/
def tickTimers (s : State) : State := { s with dt := tickDown s.dt, st := tickDown s.st }

/-- `set_keys(k)` (R39). -/
def setKeys (k : Vector Bool Config.numKeys) (s : State) : State := { s with keys := k }

/-- One cell as a byte, 0 or 1 (R37). -/
def cellByte (b : Bool) : Byte := if b then 1 else 0

/-- `read_framebuffer()`: FB_H * FB_W bytes, byte `r * FB_W + c` is FB[r][c] (R37). -/
def readFramebuffer (s : State) : List Byte :=
  s.fb.toList.flatMap (fun row => row.toList.map cellByte)

/-- `reset()` (R210): every piece of engine state at R42's value; the store and the events already emitted stay
(R211, R42), and so does the index of the next random byte (R150: reset does not touch the source). -/
def resetEngine (s : State) : State :=
  { State.reset with mem := s.mem, diags := s.diags, draws := s.draws }

/-! ## Boot -/

/-- `loadImage(bytes)` (R59): `none` is the failure result, with nothing changed (R183); else the bytes lie from
PROGRAM_ORIGIN on. It is offered before the first step only (R70, D21; log 14). -/
def loadImage (bytes : List Byte) (s : State) : Option State :=
  if bytes.length > maxImage then none else some { s with mem := placeBytes s.mem programOrigin.toNat bytes }

/-- The boot sequence (R214): construct the store, load the image, reset. -/
def boot (bytes : List Byte) : Option State := (loadImage bytes State.reset).map resetEngine

/-! ## Operations and runs -/

/-- One operation of some agent after boot (R6, R216). -/
inductive Operation where
  /-- the engine's `step()` -/
  | step
  /-- the driver's `tick_timers()` -/
  | tickTimers
  /-- the input collaborator's `set_keys(k)` -/
  | setKeys (k : Vector Bool Config.numKeys)
  /-- the presentation collaborator's `read_framebuffer()` -/
  | readFramebuffer
  /-- the host's `reset()` -/
  | reset
  deriving DecidableEq, Repr

/-- What an operation returns to its caller. -/
inductive Reply where
  /-- `step()` returns its result (R8) -/
  | stepped (r : StepResult)
  /-- `read_framebuffer()` returns the cells (R37) -/
  | cells (bytes : List Byte)
  /-- the others return nothing -/
  | nothing
  deriving DecidableEq, Repr

/-- The state after one operation. -/
def perform : Operation → State → Result
  | .step, s => Machine.step s
  | .tickTimers, s => .next (tickTimers s)
  | .setKeys k, s => .next (setKeys k s)
  | .readFramebuffer, s => .next s
  | .reset, s => .next (resetEngine s)

/-- What one operation returns, at the state before it. -/
def replyOf : Operation → State → Reply
  | .step, s => .stepped (stepResult s)
  | .readFramebuffer, s => .cells (readFramebuffer s)
  | .tickTimers, _ => .nothing
  | .setKeys _, _ => .nothing
  | .reset, _ => .nothing

/-- A run: operations one after another, in the order of the list (R6, R7). -/
def runOps : List Operation → State → Result
  | [], s => .next s
  | op :: ops, s =>
    match perform op s with
    | .next t => runOps ops t
    | .fault r => .fault r
    | .refused r => .refused r

end Sys2Proof.Machine
end

