-- ==== Sys2Proof/Safety.lean ====
section
/-! DEFINITION. The terms claims are made in: the invariant of the store, the parts of the state a frame speaks of, what
the store port gives at an address, and which pixels a sprite lights (60_exceptions.md R184; 70_reset_and_hazards.md
R217; 00_scope.md R13). No fault stops the machine, so a safe run is one that keeps the invariant. -/

namespace Sys2Proof

open Sys2Proof.Machine

/-- The invariant every operation keeps: the store is in its canonical form, so equal stores are equal data. -/
abbrev Safety.StoreCanonical (s : State) : Prop := Memory.wf s.mem = true

/-- From `s` to `t` no diagnostic event was emitted (R184). -/
def Safety.Quiet (s t : State) : Prop := t.diags = s.diags

/-- The suggested end of a run: the word at PC is 1NNN with NNN = PC (R217; the spec's suggestion, D19). -/
def Safety.SelfJump (s : State) : Prop :=
  ∃ nnn : Addr12, decodeWord (fetch s).1 = .ok (.jp nnn) ∧ nnn.toNat = s.pc.toNat

/-! ## Frames -/

/-- The parts of the state a frame speaks of: all of it but PC. -/
inductive Safety.Part where
  | regs
  | index
  | stack
  | dt
  | st
  | fb
  | keys
  | store
  | diags
  | draws
  deriving DecidableEq, Repr

/-- A part is the same in `s` and `t`; the store byte by byte, through the model's read of one byte. -/
def Safety.Kept (s t : State) : Safety.Part → Prop
  | .regs  => ∀ r, readReg t r = readReg s r
  | .index => t.i = s.i
  | .stack => t.sp = s.sp ∧ t.stack = s.stack
  | .dt    => t.dt = s.dt
  | .st    => t.st = s.st
  | .fb    => t.fb = s.fb
  | .keys  => t.keys = s.keys
  | .store => ∀ a, t.mem.read a = s.mem.read a
  | .diags => t.diags = s.diags
  | .draws => t.draws = s.draws

/-- Every part but those of the list is the same in `s` and `t`. -/
def Safety.KeepsAllBut (parts : List Safety.Part) (s t : State) : Prop := ∀ p, p ∉ parts → Safety.Kept s t p

/-- Every register but those of the list is the same in `s` and `t`. -/
def Safety.RegsKeptBut (xs : List RegIdx) (s t : State) : Prop := ∀ r, r ∉ xs → readReg t r = readReg s r

/-- PC has moved `k` words on: (PC + k * INSTR_BYTES) mod 2^PC_WIDTH (R27, R110; the reduction is the spec's decision D3,
log 3). -/
def Safety.PcMovedBy (k : Nat) (s t : State) : Prop :=
  t.pc.toNat = (s.pc.toNat + k * Config.instrBytes) % 2 ^ Config.pcWidth

/-- PC has moved to the next word (R27). -/
def Safety.PcAdvanced (s t : State) : Prop := Safety.PcMovedBy 1 s t

/-- The registers an instruction may write, as 10_state.md R21 tabulates them: the destination V[x], VF of the six
flag-writing instructions (R22), V[0] to V[x] of FX65. -/
def Safety.writtenRegs : Instr → List RegIdx
  | .ldVxNn x _ | .addVxNn x _ | .ldVxVy x _ | .orVxVy x _ | .andVxVy x _ | .xorVxVy x _ => [x]
  | .rndVxNn x _ | .ldVxDT x | .ldVxK x => [x]
  | .addVxVy x _ | .subVxVy x _ | .shrVx x _ | .subnVxVy x _ | .shlVx x _ => [x, Config.flagReg]
  | .drw _ _ _ => [Config.flagReg]
  | .ldVxMem x => (List.finRange Config.numRegs).filter (fun r => decide (r ≤ x))
  | .cls | .ret | .jp _ | .call _ | .jpV0 _ | .seVxNn _ _ | .sneVxNn _ _ | .seVxVy _ _ | .sneVxVy _ _ => []
  | .ldINnn _ | .skp _ | .sknp _ | .ldDTVx _ | .ldSTVx _ | .addIVx _ | .ldFVx _ | .ldBVx _ | .ldMemVx _ => []

/-! ## The store port and the display -/

/-- The five bytes of glyph `d` in the constructed store, top row first (R57, R60). -/
def Safety.glyphBytesOf (d : Nat) : List Byte :=
  (List.range glyphBytes).map (fun k => State.reset.mem.read (glyphOffset d + k))

/-- What `MemRead` gives at `a`: the byte, or 0 outside the store (R52). -/
def Safety.portByte (s : State) (a : Nat) : Byte := if a < memSize then s.mem.read a else 0

/-- The bounds events of accesses at the addresses of the list, in its order (R185, R187). -/
def Safety.boundsEvents (kind : Access) (addrs : List Nat) : List Diag :=
  (addrs.filter (fun a => decide (memSize ≤ a))).map (Diag.storeBounds kind)

/-- The sprite of `n` rows at `base`, drawn at (x0, y0), has a 1 bit on cell (r, c) (R161, R163). -/
def Safety.SpriteCovers (s : State) (x0 y0 n base : Nat) (r : FbRow) (c : FbCol) : Prop :=
  ∃ row col, row < n ∧ col < 8 ∧ (y0 + row) % Config.fbHeight = r.val ∧ (x0 + col) % Config.fbWidth = c.val ∧
    (Safety.portByte s (base + row)).getLsbD (7 - col) = true

/-- Some cell that is 1 lies under a 1 bit of the sprite (R164). -/
def Safety.SpriteHits (s : State) (x0 y0 n base : Nat) : Prop :=
  ∃ r c, cell s.fb r c = true ∧ Safety.SpriteCovers s x0 y0 n base r c

end Sys2Proof
end

