-- ==== Sys2Proof/Certificates/Slice0/Obligations.lean ====
section
/-! DEFINITION. The statements for the provers, from the numbered rules of spec/. A clause that rests on one of the spec's
own decisions D<n>, or on a choice of the model, is named in the docstring with its log entry. Every result statement
concludes that the instruction answers a next state, with no hypothesis, so it says too where the instruction completes;
and it says the instruction's frame. -/

open Sys2Proof Sys2Proof.Machine

/-! ## Parameters -/

/-- R5: the parameters the other statements name have the values of its table. The spec takes them as given by its decision
D10 (log 21); the width of a stack entry is D8 (log 8). -/
def Obligations.ParametersHaveTheValuesOfTheTable : Prop :=
  Config.numRegs = 16 ∧ Config.regWidth = 8 ∧ Config.flagReg.val = 15 ∧ Config.iWidth = 16 ∧ Config.pcWidth = 16 ∧
  Config.instrBytes = 2 ∧ Config.stackDepth = 16 ∧ Config.stackEntryWidth = 16 ∧ Config.timerWidth = 8 ∧
  Config.fbWidth = 64 ∧ Config.fbHeight = 32 ∧ Config.numKeys = 16 ∧
  memSize = 4096 ∧ programOrigin = 0x200#16 ∧ glyphBase = 0x050 ∧ glyphBytes = 5 ∧ maxImage = 3584

/-! ## Encoding and decoding -/

/-- R81, R82, R86: no bit of an encoding is dropped, for every instruction and every operand, as a word and as bytes in
the order they are stored (R56). The strictness of the patterns is the spec's decision D2 (log 9). -/
def Obligations.DecodeOfEncodeIsTheInstruction : Prop :=
  ∀ (i : Instr) (rest : List Byte),
    decodeWord (encode i) = .ok i ∧ decodeBytes (encodeBytes i ++ rest) = .ok (i, rest)

/-- R86: every word of the map has one spelling, so encoding what was decoded gives the word back (D2, log 9). -/
def Obligations.EncodeOfDecodeIsTheWord : Prop :=
  ∀ (w : Word) (i : Instr), decodeWord w = .ok i → encode i = w

/-- R83, R84: every word selects exactly one pattern of R86, and is its instruction, or selects none and is a decode
fault. The spec marks R84 as derived and the strictness of R83 as its decision D2 (log 9). -/
def Obligations.DecodeSelectsTheOnlyPatternOrFaults : Prop :=
  ∀ w : Word,
    (∃ r ∈ opcodeTable, r.pattern.admits w = true ∧ decodeWord w = .ok (r.build w) ∧
      ∀ q ∈ opcodeTable, q.pattern.admits w = true → q.pattern = r.pattern) ∨
    ((∀ r ∈ opcodeTable, r.pattern.admits w = false) ∧ decodeWord w = .error (.unknownOpcode w))

/-- R87: the map by family, top nibble first and then the sub-opcode. The spec marks it as derived; strictness is its
decision D2 (log 9). -/
def Obligations.IllegalWordsAreThoseOfTheFamilyMap : Prop :=
  ∀ w : Word, decodeWord w = .error (.unknownOpcode w) ↔
    (w.toNat / 4096 = 0 ∧ w.toNat % 4096 ∉ [0x0E0, 0x0EE]) ∨
    (w.toNat / 4096 ∈ [5, 9] ∧ w.toNat % 16 ≠ 0) ∨
    (w.toNat / 4096 = 8 ∧ w.toNat % 16 ∉ [0, 1, 2, 3, 4, 5, 6, 7, 0xE]) ∨
    (w.toNat / 4096 = 0xE ∧ w.toNat % 256 ∉ [0x9E, 0xA1]) ∨
    (w.toNat / 4096 = 0xF ∧ w.toNat % 256 ∉ [0x07, 0x0A, 0x15, 0x18, 0x1E, 0x29, 0x33, 0x55, 0x65])

/-- R86, R87: for each family, that is for each top nibble, one word written out from its pattern decodes to the instruction
it stands for; and two words that match no pattern are refused (D2, log 9). -/
def Obligations.SampleWordsDecodeAsTheTableSays : Prop :=
  decodeWord 0x00EE#16 = .ok .ret ∧ decodeWord 0x1234#16 = .ok (.jp 0x234#12) ∧
  decodeWord 0x2345#16 = .ok (.call 0x345#12) ∧ decodeWord 0x3A2F#16 = .ok (.seVxNn 0xA 0x2F#8) ∧
  decodeWord 0x4B30#16 = .ok (.sneVxNn 0xB 0x30#8) ∧ decodeWord 0x5AB0#16 = .ok (.seVxVy 0xA 0xB) ∧
  decodeWord 0x6C01#16 = .ok (.ldVxNn 0xC 0x01#8) ∧ decodeWord 0x7DFE#16 = .ok (.addVxNn 0xD 0xFE#8) ∧
  decodeWord 0x8AB6#16 = .ok (.shrVx 0xA 0xB) ∧ decodeWord 0x9120#16 = .ok (.sneVxVy 1 2) ∧
  decodeWord 0xA2EA#16 = .ok (.ldINnn 0x2EA#12) ∧ decodeWord 0xB210#16 = .ok (.jpV0 0x210#12) ∧
  decodeWord 0xC30F#16 = .ok (.rndVxNn 3 0x0F#8) ∧ decodeWord 0xD125#16 = .ok (.drw 1 2 5) ∧
  decodeWord 0xE59E#16 = .ok (.skp 5) ∧ decodeWord 0xF265#16 = .ok (.ldVxMem 2) ∧
  decodeWord 0x5AB1#16 = .error (.unknownOpcode 0x5AB1#16) ∧ decodeWord 0x0000#16 = .error (.unknownOpcode 0#16)

/-! ## The step -/

/-- R100: when the fetched word decodes to an instruction, the step is that instruction's execution at the state the
fetch leaves, which differs from the state before by the fetch's own bounds events only; where the store holds both
bytes at PC, it is the execution at the state itself. -/
def Obligations.StepRunsTheDecodedInstruction : Prop :=
  (∀ (s : State) (i : Instr), decodeWord (fetch s).1 = .ok i →
    step s = exec i (fetch s).2 ∧
    (fetch s).2 = { s with diags := s.diags ++ Safety.boundsEvents .read [s.pc.toNat, s.pc.toNat + 1] }) ∧
  (∀ (s : State) (i : Instr), s.pc.toNat + 1 < memSize →
    decodeWord (composeWord (s.mem.read s.pc.toNat) (s.mem.read (s.pc.toNat + 1))) = .ok i → step s = exec i s)

/-- R100, R56: the word is the bytes at PC and PC + 1, high byte first, each 0 outside the store. That PC + 1 is not
reduced is the spec's decision D4 (log 4); the payload and order of the events its decisions D13, D14 (logs 10, 19). -/
def Obligations.FetchReadsTwoBytesHighFirst : Prop :=
  ∀ s : State,
    (fetch s).1.toNat = 256 * (Safety.portByte s s.pc.toNat).toNat + (Safety.portByte s (s.pc.toNat + 1)).toNat ∧
    (fetch s).2 = { s with diags := s.diags ++ Safety.boundsEvents .read [s.pc.toNat, s.pc.toNat + 1] }

/-- R88: a word that matches no pattern is reported and skipped; nothing else changes, and the step is completed. The wrap
of PC is the spec's decision D3 (log 3), the event's payload its decision D13 (log 10). -/
def Obligations.IllegalWordIsReportedAndSkipped : Prop :=
  ∀ s : State, decodeWord (fetch s).1 = .error (.unknownOpcode (fetch s).1) →
    ∃ t, step s = .next t ∧ Safety.PcAdvanced s t ∧
      t.diags = (fetch s).2.diags ++ [.unknownOpcode (fetch s).1 s.pc] ∧
      Safety.KeepsAllBut [.diags] s t ∧ stepResult s = .completed

/-- R29: at a PC outside the store both bytes read as 0, and the engine walks on two bytes with three events. The spec
marks R29 as derived and rests it on its decisions D3, D4, D13 (logs 3, 4, 10). -/
def Obligations.StepOutsideTheStoreWalksOn : Prop :=
  ∀ s : State, memSize ≤ s.pc.toNat →
    step s = .next { s with
      pc := pcAfter s 1
      diags := s.diags ++ [.storeBounds .read s.pc.toNat, .storeBounds .read (s.pc.toNat + 1),
        .unknownOpcode 0 s.pc] }

/-- R100, R180, R188: no fault stops the engine: whatever the operations and whatever the state, each answers a next
state. That the other agents' operations are functions beside the step is the model's choice (log 12). -/
def Obligations.EveryRunAnswersANextState : Prop :=
  ∀ (ops : List Operation) (s : State), ∃ t, runOps ops s = .next t

/-- R8: the result is `waiting` exactly when the instruction was FX0A and no key was pressed; otherwise, including every
faulting case, it is `completed`. -/
def Obligations.StepIsWaitingExactlyAtKeyWait : Prop :=
  ∀ s : State,
    (stepResult s = .waiting ↔ (∃ x, decodeWord (fetch s).1 = .ok (.ldVxK x)) ∧ ∀ k, s.keys.get k = false) ∧
    (stepResult s ≠ .waiting → stepResult s = .completed)

/-- R154: a step that waits changes no state at all, PC and the diagnostics included. -/
def Obligations.AWaitingStepChangesNothing : Prop :=
  ∀ s : State, stepResult s = .waiting → step s = .next s

/-! ## Invariants and whole-machine rules -/

/-- The canonical form of the store (log 15) is kept by every step, from every state that has it. -/
def Obligations.StepKeepsTheStoreCanonical : Prop :=
  ∀ s t : State, Safety.StoreCanonical s → step s = .next t → Safety.StoreCanonical t

/-- The state right after reset has the canonical form (log 15). -/
def Obligations.ResetStoreIsCanonical : Prop := Safety.StoreCanonical State.reset

/-- The canonical form of the store (log 15) is kept by every run of operations, and by a successful image load. -/
def Obligations.RunsAndImageLoadKeepTheStoreCanonical : Prop :=
  (∀ (ops : List Operation) (s t : State), Safety.StoreCanonical s → runOps ops s = .next t →
    Safety.StoreCanonical t) ∧
  (∀ (bytes : List Byte) (s t : State), Safety.StoreCanonical s → loadImage bytes s = some t →
    Safety.StoreCanonical t)

/-- R184: events are only appended: those emitted before a run are the first ones after it, `reset()` included. -/
def Obligations.EventsAreNeverWithdrawn : Prop :=
  ∀ (ops : List Operation) (s t : State), runOps ops s = .next t → s.diags <+: t.diags

/-- R187: a step emits at most 16 events. The spec marks it as derived. -/
def Obligations.AStepEmitsAtMostSixteenEvents : Prop :=
  ∀ s t : State, step s = .next t → t.diags.length ≤ s.diags.length + 16

/-- R219: a step that keeps the rule's limits emits no event: PC inside the store, a word of the map, a call with a free
entry, a return with a live one, I + offset inside the store. The spec marks the list as derived. -/
def Obligations.AStepWithinTheLimitsIsQuiet : Prop :=
  ∀ (s t : State) (i : Instr), s.pc.toNat + 1 < memSize → decodeWord (fetch s).1 = .ok i →
    (∀ nnn, i = .call nnn → s.sp.val < Config.stackDepth) → (i = .ret → 0 < s.sp.val) →
    (∀ x y n, i = .drw x y n → s.i.toNat + n.val ≤ memSize) →
    (∀ x, i = .ldBVx x → s.i.toNat + 2 < memSize) →
    (∀ x, i = .ldMemVx x ∨ i = .ldVxMem x → s.i.toNat + x.val < memSize) →
    step s = .next t → Safety.Quiet s t

/-- R38, R13: no step, whatever the word, changes a key. The frame rule is the spec's decision D18 (log 18). -/
def Obligations.NoStepChangesTheKeys : Prop :=
  ∀ s t : State, step s = .next t → t.keys = s.keys

/-- R24, R30, R33, R36: each special piece of state is written only by the instructions its rule names: I by ANNN, FX1E,
FX29; the stack by 2NNN, 00EE; DT by FX15; ST by FX18; the framebuffer by 00E0, DXYN; the store by FX33, FX55 (R55).
That a random byte is drawn only by CXNN is the model's counter (log 1). D18, log 18. -/
def Obligations.OnlyTheNamedInstructionsWrite : Prop :=
  ∀ (i : Instr) (s t : State), exec i s = .next t →
    (t.i ≠ s.i → (∃ nnn, i = .ldINnn nnn) ∨ (∃ x, i = .addIVx x) ∨ (∃ x, i = .ldFVx x)) ∧
    (t.sp ≠ s.sp ∨ t.stack ≠ s.stack → i = .ret ∨ ∃ nnn, i = .call nnn) ∧
    (t.dt ≠ s.dt → ∃ x, i = .ldDTVx x) ∧
    (t.st ≠ s.st → ∃ x, i = .ldSTVx x) ∧
    (t.fb ≠ s.fb → i = .cls ∨ ∃ x y n, i = .drw x y n) ∧
    ((∃ a, t.mem.read a ≠ s.mem.read a) → (∃ x, i = .ldBVx x) ∨ ∃ x, i = .ldMemVx x) ∧
    (t.draws ≠ s.draws → ∃ x nn, i = .rndVxNn x nn)

/-- R21, R22: whatever instruction executes, only the V registers that R21's table lists for it change; VF changes
without being named only by the six flag-writing instructions. The spec marks R21 as derived. -/
def Obligations.OnlyTheTabulatedRegistersChange : Prop :=
  ∀ (i : Instr) (s t : State), exec i s = .next t → Safety.RegsKeptBut (Safety.writtenRegs i) s t

/-! ## The store port -/

/-- R52: a read inside the store gives the byte and changes nothing; outside it gives 0 and reports the address (the
payload is the spec's decision D13, log 10). -/
def Obligations.StoreReadIsTotal : Prop :=
  ∀ (s : State) (a : Nat),
    (a < memSize → memRead s a = (s.mem.read a, s)) ∧
    (memSize ≤ a → memRead s a = (0, { s with diags := s.diags ++ [.storeBounds .read a] }))

/-- R53, R65 (3): a write inside the store changes the one byte, so that it reads as written and every other byte as
before; outside it is discarded and reported (the payload is the spec's decision D13, log 10). Nothing else changes. -/
def Obligations.StoreWriteChangesAtMostOneByte : Prop :=
  ∀ (s : State) (a : Nat) (b : Byte),
    (a < memSize → (∀ a', (memWrite s a b).mem.read a' = if a' = a then b else s.mem.read a') ∧
      Safety.KeepsAllBut [.store] s (memWrite s a b) ∧ (memWrite s a b).pc = s.pc) ∧
    (memSize ≤ a → memWrite s a b = { s with diags := s.diags ++ [.storeBounds .write a] })

/-! ## Control flow -/

/-- R101: 00EE pops into PC, or with no live entry reports and goes on. That the vacated entry keeps its value is the
spec's decision D8 (log 8); the wrap of PC is D3 (log 3), the event's payload D13 (log 10). -/
def Obligations.RetPopsOrReportsUnderflow : Prop :=
  ∀ s : State, ∃ t, exec .ret s = .next t ∧ Safety.KeepsAllBut [.stack, .diags] s t ∧ t.stack = s.stack ∧
    (s.sp.val = 0 → t.sp = s.sp ∧ Safety.PcAdvanced s t ∧ t.diags = s.diags ++ [.stackUnderflow s.pc]) ∧
    (∀ k : Fin Config.stackDepth, s.sp.val = k.val + 1 → t.sp.val = k.val ∧ t.pc = s.stack.get k ∧ t.diags = s.diags)

/-- R103: 2NNN pushes the address of the next word and jumps, or with 16 live entries reports and goes on without either
(C6). The wrap of PC + 2 is the spec's decision D3 (log 3), the entry's width D8 (log 8), the payload D13 (log 10). -/
def Obligations.CallPushesOrReportsOverflow : Prop :=
  ∀ (s : State) (nnn : Addr12), ∃ t, exec (.call nnn) s = .next t ∧ Safety.KeepsAllBut [.stack, .diags] s t ∧
    (s.sp.val = Config.stackDepth → t.sp = s.sp ∧ t.stack = s.stack ∧ Safety.PcAdvanced s t ∧
      t.diags = s.diags ++ [.stackOverflow s.pc]) ∧
    (∀ k : Fin Config.stackDepth, s.sp.val = k.val → t.sp.val = k.val + 1 ∧ t.pc.toNat = nnn.toNat ∧
      t.diags = s.diags ∧ (t.stack.get k).toNat = (s.pc.toNat + Config.instrBytes) % 2 ^ Config.pcWidth ∧
      ∀ j, j ≠ k → t.stack.get j = s.stack.get j)

/-- R101, R103: a return right after a successful call comes back to the word after the call, with the live entries as
they were (the wrap is the spec's decision D3, log 3). -/
def Obligations.CallThenRetComesBack : Prop :=
  ∀ (s t u : State) (nnn : Addr12), s.sp.val < Config.stackDepth → exec (.call nnn) s = .next t →
    exec .ret t = .next u →
    u.sp = s.sp ∧ Safety.PcAdvanced s u ∧ u.diags = s.diags ∧
    ∀ k : Fin Config.stackDepth, k.val < s.sp.val → u.stack.get k = s.stack.get k

/-- R102: 1NNN sets PC to NNN, inside the store, and changes nothing else; its word has top nibble 1; a jump to its own
address changes nothing at all, as an instruction and as a step. -/
def Obligations.JumpSetsPcAndSelfJumpIsAFixedPoint : Prop :=
  (∀ (s : State) (nnn : Addr12), (encode (.jp nnn)).toNat = 0x1000 + nnn.toNat ∧
    ∃ t, exec (.jp nnn) s = .next t ∧ t.pc.toNat = nnn.toNat ∧ t.pc.toNat < memSize ∧
      Safety.KeepsAllBut [] s t ∧ (nnn.toNat = s.pc.toNat → t = s)) ∧
  (∀ s : State, Safety.SelfJump s → step s = .next s)

/-- R104: BNNN sets PC to NNN + V[0], not reduced, whatever bits 11:8 hold; no flag, no fault, nothing else. -/
def Obligations.JumpWithOffsetAddsV0 : Prop :=
  ∀ (s : State) (nnn : Addr12), (encode (.jpV0 nnn)).toNat = 0xB000 + nnn.toNat ∧
    ∃ t, exec (.jpV0 nnn) s = .next t ∧ t.pc.toNat = nnn.toNat + (readReg s 0).toNat ∧ Safety.KeepsAllBut [] s t

/-! ## Skips -/

/-- R110 to R114: the four skips on registers move PC by 4 when their condition holds and by 2 otherwise, and change
nothing else. The wrap of PC is the spec's decision D3 (log 3). -/
def Obligations.RegisterSkipsMoveByFourOrTwo : Prop :=
  ∀ (s : State) (x y : RegIdx) (nn : Byte),
    (∃ t, exec (.seVxNn x nn) s = .next t ∧ Safety.KeepsAllBut [] s t ∧
      Safety.PcMovedBy (if readReg s x = nn then 2 else 1) s t) ∧
    (∃ t, exec (.sneVxNn x nn) s = .next t ∧ Safety.KeepsAllBut [] s t ∧
      Safety.PcMovedBy (if readReg s x ≠ nn then 2 else 1) s t) ∧
    (∃ t, exec (.seVxVy x y) s = .next t ∧ Safety.KeepsAllBut [] s t ∧
      Safety.PcMovedBy (if readReg s x = readReg s y then 2 else 1) s t) ∧
    (∃ t, exec (.sneVxVy x y) s = .next t ∧ Safety.KeepsAllBut [] s t ∧
      Safety.PcMovedBy (if readReg s x ≠ readReg s y then 2 else 1) s t)

/-- R151, R152, R158: the two skips on a key test the key V[x] mod 16 names and change nothing but PC. That a value above
15 selects by its low four bits is the spec's decision D6 (log 6), the wrap of PC its decision D3 (log 3). -/
def Obligations.KeySkipsTestTheKeyOfTheLowNibble : Prop :=
  ∀ (s : State) (x : RegIdx) (k : KeyIdx), (readReg s x).toNat % 2 ^ 4 = k.val →
    (∃ t, exec (.skp x) s = .next t ∧ Safety.KeepsAllBut [] s t ∧
      Safety.PcMovedBy (if s.keys.get k = true then 2 else 1) s t) ∧
    (∃ t, exec (.sknp x) s = .next t ∧ Safety.KeepsAllBut [] s t ∧
      Safety.PcMovedBy (if s.keys.get k = false then 2 else 1) s t)

/-! ## Load, arithmetic, logic, shift -/

/-- R122, R124 to R127: the loads and the bitwise instructions write V[x] bit by bit as their rules say and nothing else:
VF is unchanged unless x = 15. The wrap of PC is the spec's decision D3 (log 3). -/
def Obligations.LoadsAndLogicWriteOnlyVx : Prop :=
  ∀ (s : State) (x y : RegIdx) (nn : Byte),
    (∃ t, exec (.ldVxNn x nn) s = .next t ∧ readReg t x = nn ∧
      Safety.PcAdvanced s t ∧ Safety.KeepsAllBut [.regs] s t ∧ Safety.RegsKeptBut [x] s t) ∧
    (∃ t, exec (.ldVxVy x y) s = .next t ∧ readReg t x = readReg s y ∧
      Safety.PcAdvanced s t ∧ Safety.KeepsAllBut [.regs] s t ∧ Safety.RegsKeptBut [x] s t) ∧
    (∃ t, exec (.orVxVy x y) s = .next t ∧
      (∀ k, (readReg t x).getLsbD k = ((readReg s x).getLsbD k || (readReg s y).getLsbD k)) ∧
      Safety.PcAdvanced s t ∧ Safety.KeepsAllBut [.regs] s t ∧ Safety.RegsKeptBut [x] s t) ∧
    (∃ t, exec (.andVxVy x y) s = .next t ∧
      (∀ k, (readReg t x).getLsbD k = ((readReg s x).getLsbD k && (readReg s y).getLsbD k)) ∧
      Safety.PcAdvanced s t ∧ Safety.KeepsAllBut [.regs] s t ∧ Safety.RegsKeptBut [x] s t) ∧
    (∃ t, exec (.xorVxVy x y) s = .next t ∧
      (∀ k, (readReg t x).getLsbD k = ((readReg s x).getLsbD k ^^ (readReg s y).getLsbD k)) ∧
      Safety.PcAdvanced s t ∧ Safety.KeepsAllBut [.regs] s t ∧ Safety.RegsKeptBut [x] s t)

/-- R123: 7XNN adds modulo 256 with no flag: VF is unchanged unless x = 15. The wrap of PC is D3 (log 3). -/
def Obligations.AddByteWrapsWithoutFlag : Prop :=
  ∀ (s : State) (x : RegIdx) (nn : Byte), ∃ t, exec (.addVxNn x nn) s = .next t ∧
    (readReg t x).toNat = ((readReg s x).toNat + nn.toNat) % 2 ^ Config.regWidth ∧
    Safety.PcAdvanced s t ∧ Safety.KeepsAllBut [.regs] s t ∧ Safety.RegsKeptBut [x] s t

/-- R128: 8XY4 adds modulo 256 and VF is the carry; with x = 15 VF ends as the sum. That the result is written last is
R121, the spec's decision D5 (log 5); the wrap of PC is D3 (log 3). -/
def Obligations.AddRegistersSetsCarry : Prop :=
  ∀ (s : State) (x y : RegIdx), ∃ t, exec (.addVxVy x y) s = .next t ∧
    (readReg t x).toNat = ((readReg s x).toNat + (readReg s y).toNat) % 2 ^ Config.regWidth ∧
    (x ≠ Config.flagReg → readReg t Config.flagReg =
      if (readReg s x).toNat + (readReg s y).toNat > 2 ^ Config.regWidth - 1 then 1 else 0) ∧
    Safety.PcAdvanced s t ∧ Safety.KeepsAllBut [.regs] s t ∧ Safety.RegsKeptBut [x, Config.flagReg] s t

/-- R129, R131: 8XY5 and 8XY7 subtract modulo 256 and VF is the strict comparison, so equal operands give 0; with x = 15 VF
ends as the difference, and with y = 15 the operand is the old VF: R121, the spec's decision D5 (log 5). The wrap of PC
is D3 (log 3). -/
def Obligations.SubtractionsSetStrictComparison : Prop :=
  ∀ (s : State) (x y : RegIdx),
    (∃ t, exec (.subVxVy x y) s = .next t ∧
      (readReg t x).toNat = ((readReg s x).toNat + 2 ^ Config.regWidth - (readReg s y).toNat) % 2 ^ Config.regWidth ∧
      (x ≠ Config.flagReg → readReg t Config.flagReg = if (readReg s x).toNat > (readReg s y).toNat then 1 else 0) ∧
      Safety.PcAdvanced s t ∧ Safety.KeepsAllBut [.regs] s t ∧ Safety.RegsKeptBut [x, Config.flagReg] s t) ∧
    (∃ t, exec (.subnVxVy x y) s = .next t ∧
      (readReg t x).toNat = ((readReg s y).toNat + 2 ^ Config.regWidth - (readReg s x).toNat) % 2 ^ Config.regWidth ∧
      (x ≠ Config.flagReg → readReg t Config.flagReg = if (readReg s y).toNat > (readReg s x).toNat then 1 else 0) ∧
      Safety.PcAdvanced s t ∧ Safety.KeepsAllBut [.regs] s t ∧ Safety.RegsKeptBut [x, Config.flagReg] s t)

/-- R130, R132: 8XY6 and 8XYE shift V[x] by one in place, whatever y, and VF is the bit shifted out; with x = 15 VF ends as
the shifted value: R121, the spec's decision D5 (log 5). The wrap of PC is D3 (log 3). -/
def Obligations.ShiftsCaptureTheBitShiftedOut : Prop :=
  ∀ (s : State) (x y : RegIdx),
    (∃ t, exec (.shrVx x y) s = .next t ∧ (readReg t x).toNat = (readReg s x).toNat / 2 ∧
      (x ≠ Config.flagReg → (readReg t Config.flagReg).toNat = (readReg s x).toNat % 2) ∧
      Safety.PcAdvanced s t ∧ Safety.KeepsAllBut [.regs] s t ∧ Safety.RegsKeptBut [x, Config.flagReg] s t) ∧
    (∃ t, exec (.shlVx x y) s = .next t ∧ (readReg t x).toNat = (readReg s x).toNat * 2 % 2 ^ Config.regWidth ∧
      (x ≠ Config.flagReg → (readReg t Config.flagReg).toNat = (readReg s x).toNat / 2 ^ (Config.regWidth - 1)) ∧
      Safety.PcAdvanced s t ∧ Safety.KeepsAllBut [.regs] s t ∧ Safety.RegsKeptBut [x, Config.flagReg] s t)

/-! ## Index register and store transfers -/

/-- R140, R141, R143: ANNN, FX1E and FX29 give I its new value and change nothing else; no flag is written. The wrap of I is
the spec's decision D9 (log 7), that of PC D3 (log 3). -/
def Obligations.IndexRegisterWritesGiveTheirValue : Prop :=
  ∀ (s : State) (x : RegIdx) (nnn : Addr12),
    (∃ t, exec (.ldINnn nnn) s = .next t ∧ t.i.toNat = nnn.toNat ∧
      Safety.PcAdvanced s t ∧ Safety.KeepsAllBut [.index] s t) ∧
    (∃ t, exec (.addIVx x) s = .next t ∧ t.i.toNat = (s.i.toNat + (readReg s x).toNat) % 2 ^ Config.iWidth ∧
      Safety.PcAdvanced s t ∧ Safety.KeepsAllBut [.index] s t) ∧
    (∃ t, exec (.ldFVx x) s = .next t ∧ t.i.toNat = glyphBase + (readReg s x).toNat * glyphBytes ∧
      Safety.PcAdvanced s t ∧ Safety.KeepsAllBut [.index] s t)

/-- R144: FX33 stores hundreds, tens, units at I, I + 1, I + 2; a byte outside the store is discarded and reported, and the
others are still written; every other byte is unchanged. That I + k is not reduced is the spec's decision D4 (log 4), the
events' payload and order D13, D14 (logs 10, 19), the wrap of PC D3 (log 3). -/
def Obligations.DecimalDigitsAreStoredAtI : Prop :=
  ∀ (s : State) (x : RegIdx), ∃ t, exec (.ldBVx x) s = .next t ∧
    (effAddr s 0 < memSize → (t.mem.read (effAddr s 0)).toNat = (readReg s x).toNat / 100) ∧
    (effAddr s 1 < memSize → (t.mem.read (effAddr s 1)).toNat = (readReg s x).toNat / 10 % 10) ∧
    (effAddr s 2 < memSize → (t.mem.read (effAddr s 2)).toNat = (readReg s x).toNat % 10) ∧
    (∀ a, a ∉ [effAddr s 0, effAddr s 1, effAddr s 2] → t.mem.read a = s.mem.read a) ∧
    t.diags = s.diags ++ Safety.boundsEvents .write [effAddr s 0, effAddr s 1, effAddr s 2] ∧
    Safety.PcAdvanced s t ∧ Safety.KeepsAllBut [.store, .diags] s t

/-- R145: FX55 stores V[r] at I + r for r = 0 to x; a byte outside the store is discarded and reported; every other byte,
every register and I are unchanged. D4 (log 4), D13, D14 (logs 10, 19) and D3 (log 3) as for FX33. -/
def Obligations.RegistersAreStoredFromI : Prop :=
  ∀ (s : State) (x : RegIdx), ∃ t, exec (.ldMemVx x) s = .next t ∧
    (∀ r : RegIdx, r ≤ x → effAddr s r.val < memSize → t.mem.read (effAddr s r.val) = readReg s r) ∧
    (∀ a, (∀ r : RegIdx, r ≤ x → a ≠ effAddr s r.val) → t.mem.read a = s.mem.read a) ∧
    t.diags = s.diags ++ Safety.boundsEvents .write ((List.range (x.val + 1)).map (effAddr s)) ∧
    Safety.PcAdvanced s t ∧ Safety.KeepsAllBut [.store, .diags] s t

/-- R146: FX65 loads V[r] from I + r for r = 0 to x, 0 where the store has no byte, and reports each such read; the
registers above x, I and the store are unchanged. D4 (log 4), D13, D14 (logs 10, 19), D3 (log 3) as for FX33. -/
def Obligations.RegistersAreLoadedFromI : Prop :=
  ∀ (s : State) (x : RegIdx), ∃ t, exec (.ldVxMem x) s = .next t ∧
    (∀ r : RegIdx, r ≤ x → effAddr s r.val < memSize → readReg t r = s.mem.read (effAddr s r.val)) ∧
    (∀ r : RegIdx, r ≤ x → memSize ≤ effAddr s r.val → readReg t r = 0) ∧
    (∀ r : RegIdx, x < r → readReg t r = readReg s r) ∧
    t.diags = s.diags ++ Safety.boundsEvents .read ((List.range (x.val + 1)).map (effAddr s)) ∧
    Safety.PcAdvanced s t ∧ Safety.KeepsAllBut [.regs, .diags] s t

/-! ## Random, keys, timers -/

/-- R157, R150: CXNN writes a free byte AND nn and draws exactly one byte. The byte is `Config.randByte`, a free value, and
the counter that indexes it is the model's own (log 1; the spec's decision D7): the statement holds for every byte. The
wrap of PC is D3 (log 3). -/
def Obligations.RandomByteIsMasked : Prop :=
  ∀ (s : State) (x : RegIdx) (nn : Byte), ∃ t, exec (.rndVxNn x nn) s = .next t ∧
    readReg t x = Config.randByte s.draws &&& nn ∧ (readReg t x).toNat ≤ nn.toNat ∧ t.draws = s.draws + 1 ∧
    Safety.PcAdvanced s t ∧ Safety.KeepsAllBut [.regs, .draws] s t ∧ Safety.RegsKeptBut [x] s t

/-- R157: over all bytes that may be drawn, the results of CXNN are exactly the bytes v with v AND nn = v. The draw is the
free value of log 1. -/
def Obligations.RandomResultsAreExactlyTheMaskedBytes : Prop :=
  ∀ (s : State) (x : RegIdx) (nn v : Byte),
    exec (.rndVxNn x nn) s = .next (rndWith (Config.randByte s.draws) x nn s) ∧
    ((∃ r : Byte, readReg (rndWith r x nn s) x = v) ↔ v &&& nn = v)

/-- R153, R155, R156: FX07 reads DT; FX15 and FX18 set DT and ST to any value; nothing else changes. The wrap of PC is the
spec's decision D3 (log 3). -/
def Obligations.TimerTransfersCopyTheByte : Prop :=
  ∀ (s : State) (x : RegIdx),
    (∃ t, exec (.ldVxDT x) s = .next t ∧ readReg t x = s.dt ∧
      Safety.PcAdvanced s t ∧ Safety.KeepsAllBut [.regs] s t ∧ Safety.RegsKeptBut [x] s t) ∧
    (∃ t, exec (.ldDTVx x) s = .next t ∧ t.dt = readReg s x ∧
      Safety.PcAdvanced s t ∧ Safety.KeepsAllBut [.dt] s t) ∧
    (∃ t, exec (.ldSTVx x) s = .next t ∧ t.st = readReg s x ∧
      Safety.PcAdvanced s t ∧ Safety.KeepsAllBut [.st] s t)

/-- R154: with a key pressed FX0A stores the least pressed index and goes on; with none it changes nothing and waits. The
wrap of PC is the spec's decision D3 (log 3). -/
def Obligations.KeyWaitTakesTheLeastPressedKey : Prop :=
  ∀ (s : State) (x : RegIdx),
    (∀ k : KeyIdx, s.keys.get k = true → (∀ j, j < k → s.keys.get j = false) →
      execResult (.ldVxK x) s = .completed ∧
      ∃ t, exec (.ldVxK x) s = .next t ∧ (readReg t x).toNat = k.val ∧
        Safety.PcAdvanced s t ∧ Safety.KeepsAllBut [.regs] s t ∧ Safety.RegsKeptBut [x] s t) ∧
    ((∀ k, s.keys.get k = false) → exec (.ldVxK x) s = .next s ∧ execResult (.ldVxK x) s = .waiting)

/-! ## Display -/

/-- R160: 00E0 makes every cell 0 and changes nothing else, VF included. The wrap of PC is D3 (log 3). -/
def Obligations.ClearMakesEveryCellZero : Prop :=
  ∀ s : State, ∃ t, exec .cls s = .next t ∧ (∀ r c, cell t.fb r c = false) ∧
    Safety.PcAdvanced s t ∧ Safety.KeepsAllBut [.fb] s t

/-- R161, R162, R163, R164: DXYN toggles exactly the cells the wrapped sprite covers, and VF is 1 exactly when one of them
was 1, else 0, with the coordinates and I as they were before. Rows outside the store draw nothing and are reported.
The spec marks R164 as derived; the value 1 and n = 0 are its decisions D15, D20 (log 17), I + row not reduced D4 (log 4),
the events D13, D14 (logs 10, 19), the wrap of PC D3 (log 3). -/
def Obligations.DrawXorsTheSpriteAndReportsCollision : Prop :=
  ∀ (s : State) (x y : RegIdx) (n : RowCount), ∃ t, exec (.drw x y n) s = .next t ∧
    (∀ r c, cell t.fb r c = true ↔
      ¬ (cell s.fb r c = true ↔
        Safety.SpriteCovers s (readReg s x).toNat (readReg s y).toNat n.val (effAddr s 0) r c)) ∧
    (Safety.SpriteHits s (readReg s x).toNat (readReg s y).toNat n.val (effAddr s 0) → readReg t Config.flagReg = 1) ∧
    (¬ Safety.SpriteHits s (readReg s x).toNat (readReg s y).toNat n.val (effAddr s 0) → readReg t Config.flagReg = 0) ∧
    t.diags = s.diags ++ Safety.boundsEvents .read ((List.range n.val).map (effAddr s)) ∧
    Safety.PcAdvanced s t ∧ Safety.KeepsAllBut [.regs, .fb, .diags] s t ∧ Safety.RegsKeptBut [Config.flagReg] s t

/-- R164: drawing the identical sprite at the identical position twice restores the framebuffer; the second draw collides
exactly when some covered cell was 0 before the first; on a clear framebuffer the first draw reports no collision and the
second reports one exactly when the sprite has a 1 bit. The spec marks R164 as derived. -/
def Obligations.DrawingTwiceRestoresTheFramebuffer : Prop :=
  ∀ (s : State) (x0 y0 : Byte) (n : RowCount) (base : Nat),
    (blit x0 y0 n base (blit x0 y0 n base s).2).2.fb = s.fb ∧
    ((blit x0 y0 n base (blit x0 y0 n base s).2).1 = true ↔
      ∃ r c, cell s.fb r c = false ∧ Safety.SpriteCovers s x0.toNat y0.toNat n.val base r c) ∧
    ((∀ r c, cell s.fb r c = false) →
      (blit x0 y0 n base s).1 = false ∧
      ((blit x0 y0 n base (blit x0 y0 n base s).2).1 = true ↔
        ∃ row col, row < n.val ∧ col < 8 ∧ (Safety.portByte s (base + row)).getLsbD (7 - col) = true))

/-! ## The other agents' operations, reset and boot -/

/-- R34: each timer goes down by one and stays at 0; nothing else changes and no event is emitted. -/
def Obligations.TickTimersCountsDownToZero : Prop :=
  ∀ s : State, ∃ t, perform .tickTimers s = .next t ∧
    t.dt.toNat = s.dt.toNat - 1 ∧ t.st.toNat = s.st.toNat - 1 ∧ t = { s with dt := t.dt, st := t.st }

/-- R39: `set_keys` gives every slot its bit and changes nothing else. That it falls between two steps is the spec's
decision D17 (log 12). -/
def Obligations.SetKeysWritesEverySlot : Prop :=
  ∀ (s : State) (k : Vector Bool Config.numKeys), ∃ t, perform (.setKeys k) s = .next t ∧
    (∀ j, t.keys.get j = k.get j) ∧ t = { s with keys := t.keys }

/-- R37: the framebuffer reads as FB_H * FB_W bytes, byte r * FB_W + c being FB[r][c] as 0 or 1, and the read changes
nothing. The spec marks the numbering as derived. -/
def Obligations.FramebufferReadsRowMajor : Prop :=
  ∀ s : State, perform .readFramebuffer s = .next s ∧
    ∃ bytes, replyOf .readFramebuffer s = .cells bytes ∧ bytes.length = Config.fbHeight * Config.fbWidth ∧
      ∀ (r : FbRow) (c : FbCol), bytes[r.val * Config.fbWidth + c.val]? = some (if cell s.fb r c then 1 else 0)

/-- R210, R42: `reset()` cannot fail, emits no event, and gives every piece of engine state its value, whatever came before.
That "clears" sets to zero the spec marks as derived, and the model reads it so (log 20). -/
def Obligations.ResetGivesEveryRegisterItsValue : Prop :=
  ∀ s : State, ∃ t, perform .reset s = .next t ∧
    t.pc = programOrigin ∧ (∀ r, readReg t r = 0) ∧ t.i = 0 ∧ t.dt = 0 ∧ t.st = 0 ∧
    t.sp.val = 0 ∧ (∀ k, t.stack.get k = 0) ∧ (∀ r c, cell t.fb r c = false) ∧ (∀ k, t.keys.get k = false) ∧
    t.diags = s.diags

/-- R211, R42, R150: `reset()` leaves the store, the events already emitted and the random source alone. The store is the
spec's decision D12 (log 16); the index of the random source is the model's own (log 1). -/
def Obligations.ResetLeavesTheStore : Prop :=
  ∀ s : State, ∃ t, perform .reset s = .next t ∧ t.mem = s.mem ∧ t.diags = s.diags ∧ t.draws = s.draws

/-- R60, R57: the constructed store is 0 but for the glyph table at GLYPH_BASE, GLYPH_BYTES to a glyph; all sixteen glyphs
are written out, and every low nibble is 0. The bytes are the spec's general-knowledge passage G1 (log 2). -/
def Obligations.ConstructedStoreHoldsTheGlyphTable : Prop :=
  (∀ a, a < glyphBase ∨ glyphOffset 16 ≤ a → State.reset.mem.read a = 0) ∧
  (∀ a, (State.reset.mem.read a).extractLsb' 0 4 = 0#4) ∧
  Safety.glyphBytesOf 0x0 = [0xF0#8, 0x90#8, 0x90#8, 0x90#8, 0xF0#8] ∧
  Safety.glyphBytesOf 0x1 = [0x20#8, 0x60#8, 0x20#8, 0x20#8, 0x70#8] ∧
  Safety.glyphBytesOf 0x2 = [0xF0#8, 0x10#8, 0xF0#8, 0x80#8, 0xF0#8] ∧
  Safety.glyphBytesOf 0x3 = [0xF0#8, 0x10#8, 0xF0#8, 0x10#8, 0xF0#8] ∧
  Safety.glyphBytesOf 0x4 = [0x90#8, 0x90#8, 0xF0#8, 0x10#8, 0x10#8] ∧
  Safety.glyphBytesOf 0x5 = [0xF0#8, 0x80#8, 0xF0#8, 0x10#8, 0xF0#8] ∧
  Safety.glyphBytesOf 0x6 = [0xF0#8, 0x80#8, 0xF0#8, 0x90#8, 0xF0#8] ∧
  Safety.glyphBytesOf 0x7 = [0xF0#8, 0x10#8, 0x20#8, 0x40#8, 0x40#8] ∧
  Safety.glyphBytesOf 0x8 = [0xF0#8, 0x90#8, 0xF0#8, 0x90#8, 0xF0#8] ∧
  Safety.glyphBytesOf 0x9 = [0xF0#8, 0x90#8, 0xF0#8, 0x10#8, 0xF0#8] ∧
  Safety.glyphBytesOf 0xA = [0xF0#8, 0x90#8, 0xF0#8, 0x90#8, 0x90#8] ∧
  Safety.glyphBytesOf 0xB = [0xE0#8, 0x90#8, 0xE0#8, 0x90#8, 0xE0#8] ∧
  Safety.glyphBytesOf 0xC = [0xF0#8, 0x80#8, 0x80#8, 0x80#8, 0xF0#8] ∧
  Safety.glyphBytesOf 0xD = [0xE0#8, 0x90#8, 0x90#8, 0x90#8, 0xE0#8] ∧
  Safety.glyphBytesOf 0xE = [0xF0#8, 0x80#8, 0xF0#8, 0x80#8, 0xF0#8] ∧
  Safety.glyphBytesOf 0xF = [0xF0#8, 0x80#8, 0xF0#8, 0x80#8, 0x80#8]

/-- R59: an image longer than MAX_IMAGE bytes is refused with nothing changed; any other is copied to PROGRAM_ORIGIN and
on, every other byte keeping its value, and no engine state is touched. -/
def Obligations.LoadImageCopiesOrFails : Prop :=
  ∀ (bytes : List Byte) (s : State),
    (maxImage < bytes.length → loadImage bytes s = none) ∧
    (bytes.length ≤ maxImage → ∃ t, loadImage bytes s = some t ∧ t = { s with mem := t.mem } ∧
      (∀ k, k < bytes.length → some (t.mem.read (programOrigin.toNat + k)) = bytes[k]?) ∧
      ∀ a, a < programOrigin.toNat ∨ programOrigin.toNat + bytes.length ≤ a → t.mem.read a = s.mem.read a)

/-- R214: after boot the first step fetches the first two bytes of the image from PROGRAM_ORIGIN, high byte first. The spec
marks the sequence as derived; that a program is loaded from outside the machine is log 11. -/
def Obligations.BootedMachineFetchesTheImageFirst : Prop :=
  ∀ (hi lo : Byte) (rest : List Byte), rest.length + Config.instrBytes ≤ maxImage →
    ∃ s, boot (hi :: lo :: rest) = some s ∧ s.pc = programOrigin ∧ fetch s = (composeWord hi lo, s)

/-- The word placed for the next fetch is the one the next step runs, at the state with the word in its store: the model's
own aid, which stands for the image load of R59 (log 11). -/
def Obligations.PlacedWordIsTheOneTheStepRuns : Prop :=
  ∀ (s : State) (nbits w : Nat) (i : Instr), decodeTableWord nbits w = some i →
    step (s.withFetchWord nbits w) = exec i (s.withFetchWord nbits w)
end

