-- ==== Sys2Proof/Laws/State.lean ====
section
/-! SUPPORT. One lemma per field per update, true by rfl, so that no later proof unfolds a record update; and what a
register read gives after a register write. -/

namespace Sys2Proof.Machine

/-! ### writeReg -/

@[simp] theorem writeReg_v (s : State) (x : RegIdx) (b : Byte) : (writeReg s x b).v = s.v.set x.val b x.isLt := rfl
@[simp] theorem writeReg_i (s : State) (x : RegIdx) (b : Byte) : (writeReg s x b).i = s.i := rfl
@[simp] theorem writeReg_pc (s : State) (x : RegIdx) (b : Byte) : (writeReg s x b).pc = s.pc := rfl
@[simp] theorem writeReg_sp (s : State) (x : RegIdx) (b : Byte) : (writeReg s x b).sp = s.sp := rfl
@[simp] theorem writeReg_stack (s : State) (x : RegIdx) (b : Byte) : (writeReg s x b).stack = s.stack := rfl
@[simp] theorem writeReg_dt (s : State) (x : RegIdx) (b : Byte) : (writeReg s x b).dt = s.dt := rfl
@[simp] theorem writeReg_st (s : State) (x : RegIdx) (b : Byte) : (writeReg s x b).st = s.st := rfl
@[simp] theorem writeReg_fb (s : State) (x : RegIdx) (b : Byte) : (writeReg s x b).fb = s.fb := rfl
@[simp] theorem writeReg_keys (s : State) (x : RegIdx) (b : Byte) : (writeReg s x b).keys = s.keys := rfl
@[simp] theorem writeReg_mem (s : State) (x : RegIdx) (b : Byte) : (writeReg s x b).mem = s.mem := rfl
@[simp] theorem writeReg_diags (s : State) (x : RegIdx) (b : Byte) : (writeReg s x b).diags = s.diags := rfl
@[simp] theorem writeReg_draws (s : State) (x : RegIdx) (b : Byte) : (writeReg s x b).draws = s.draws := rfl

/-! ### setI -/

@[simp] theorem setI_v (s : State) (a : Word) : (setI s a).v = s.v := rfl
@[simp] theorem setI_i (s : State) (a : Word) : (setI s a).i = a := rfl
@[simp] theorem setI_pc (s : State) (a : Word) : (setI s a).pc = s.pc := rfl
@[simp] theorem setI_sp (s : State) (a : Word) : (setI s a).sp = s.sp := rfl
@[simp] theorem setI_stack (s : State) (a : Word) : (setI s a).stack = s.stack := rfl
@[simp] theorem setI_dt (s : State) (a : Word) : (setI s a).dt = s.dt := rfl
@[simp] theorem setI_st (s : State) (a : Word) : (setI s a).st = s.st := rfl
@[simp] theorem setI_fb (s : State) (a : Word) : (setI s a).fb = s.fb := rfl
@[simp] theorem setI_keys (s : State) (a : Word) : (setI s a).keys = s.keys := rfl
@[simp] theorem setI_mem (s : State) (a : Word) : (setI s a).mem = s.mem := rfl
@[simp] theorem setI_diags (s : State) (a : Word) : (setI s a).diags = s.diags := rfl
@[simp] theorem setI_draws (s : State) (a : Word) : (setI s a).draws = s.draws := rfl
@[simp] theorem readReg_setI (s : State) (a : Word) (r : RegIdx) : readReg (setI s a) r = readReg s r := rfl

/-! ### setPc -/

@[simp] theorem setPc_v (s : State) (a : Word) : (setPc s a).v = s.v := rfl
@[simp] theorem setPc_i (s : State) (a : Word) : (setPc s a).i = s.i := rfl
@[simp] theorem setPc_pc (s : State) (a : Word) : (setPc s a).pc = a := rfl
@[simp] theorem setPc_sp (s : State) (a : Word) : (setPc s a).sp = s.sp := rfl
@[simp] theorem setPc_stack (s : State) (a : Word) : (setPc s a).stack = s.stack := rfl
@[simp] theorem setPc_dt (s : State) (a : Word) : (setPc s a).dt = s.dt := rfl
@[simp] theorem setPc_st (s : State) (a : Word) : (setPc s a).st = s.st := rfl
@[simp] theorem setPc_fb (s : State) (a : Word) : (setPc s a).fb = s.fb := rfl
@[simp] theorem setPc_keys (s : State) (a : Word) : (setPc s a).keys = s.keys := rfl
@[simp] theorem setPc_mem (s : State) (a : Word) : (setPc s a).mem = s.mem := rfl
@[simp] theorem setPc_diags (s : State) (a : Word) : (setPc s a).diags = s.diags := rfl
@[simp] theorem setPc_draws (s : State) (a : Word) : (setPc s a).draws = s.draws := rfl
@[simp] theorem readReg_setPc (s : State) (a : Word) (r : RegIdx) : readReg (setPc s a) r = readReg s r := rfl

/-! ### advance -/

@[simp] theorem advance_v (s : State) : (advance s).v = s.v := rfl
@[simp] theorem advance_i (s : State) : (advance s).i = s.i := rfl
@[simp] theorem advance_pc (s : State) : (advance s).pc = pcAfter s 1 := rfl
@[simp] theorem advance_sp (s : State) : (advance s).sp = s.sp := rfl
@[simp] theorem advance_stack (s : State) : (advance s).stack = s.stack := rfl
@[simp] theorem advance_dt (s : State) : (advance s).dt = s.dt := rfl
@[simp] theorem advance_st (s : State) : (advance s).st = s.st := rfl
@[simp] theorem advance_fb (s : State) : (advance s).fb = s.fb := rfl
@[simp] theorem advance_keys (s : State) : (advance s).keys = s.keys := rfl
@[simp] theorem advance_mem (s : State) : (advance s).mem = s.mem := rfl
@[simp] theorem advance_diags (s : State) : (advance s).diags = s.diags := rfl
@[simp] theorem advance_draws (s : State) : (advance s).draws = s.draws := rfl
@[simp] theorem readReg_advance (s : State) (r : RegIdx) : readReg (advance s) r = readReg s r := rfl

/-! ### skipIf -/

@[simp] theorem skipIf_v (c : Bool) (s : State) : (skipIf c s).v = s.v := rfl
@[simp] theorem skipIf_i (c : Bool) (s : State) : (skipIf c s).i = s.i := rfl
@[simp] theorem skipIf_pc (c : Bool) (s : State) : (skipIf c s).pc = if c then pcAfter s 2 else pcAfter s 1 := rfl
@[simp] theorem skipIf_sp (c : Bool) (s : State) : (skipIf c s).sp = s.sp := rfl
@[simp] theorem skipIf_stack (c : Bool) (s : State) : (skipIf c s).stack = s.stack := rfl
@[simp] theorem skipIf_dt (c : Bool) (s : State) : (skipIf c s).dt = s.dt := rfl
@[simp] theorem skipIf_st (c : Bool) (s : State) : (skipIf c s).st = s.st := rfl
@[simp] theorem skipIf_fb (c : Bool) (s : State) : (skipIf c s).fb = s.fb := rfl
@[simp] theorem skipIf_keys (c : Bool) (s : State) : (skipIf c s).keys = s.keys := rfl
@[simp] theorem skipIf_mem (c : Bool) (s : State) : (skipIf c s).mem = s.mem := rfl
@[simp] theorem skipIf_diags (c : Bool) (s : State) : (skipIf c s).diags = s.diags := rfl
@[simp] theorem skipIf_draws (c : Bool) (s : State) : (skipIf c s).draws = s.draws := rfl
@[simp] theorem readReg_skipIf (c : Bool) (s : State) (r : RegIdx) : readReg (skipIf c s) r = readReg s r := rfl

/-! ### setDt -/

@[simp] theorem setDt_v (s : State) (b : Byte) : (setDt s b).v = s.v := rfl
@[simp] theorem setDt_i (s : State) (b : Byte) : (setDt s b).i = s.i := rfl
@[simp] theorem setDt_pc (s : State) (b : Byte) : (setDt s b).pc = s.pc := rfl
@[simp] theorem setDt_sp (s : State) (b : Byte) : (setDt s b).sp = s.sp := rfl
@[simp] theorem setDt_stack (s : State) (b : Byte) : (setDt s b).stack = s.stack := rfl
@[simp] theorem setDt_dt (s : State) (b : Byte) : (setDt s b).dt = b := rfl
@[simp] theorem setDt_st (s : State) (b : Byte) : (setDt s b).st = s.st := rfl
@[simp] theorem setDt_fb (s : State) (b : Byte) : (setDt s b).fb = s.fb := rfl
@[simp] theorem setDt_keys (s : State) (b : Byte) : (setDt s b).keys = s.keys := rfl
@[simp] theorem setDt_mem (s : State) (b : Byte) : (setDt s b).mem = s.mem := rfl
@[simp] theorem setDt_diags (s : State) (b : Byte) : (setDt s b).diags = s.diags := rfl
@[simp] theorem setDt_draws (s : State) (b : Byte) : (setDt s b).draws = s.draws := rfl
@[simp] theorem readReg_setDt (s : State) (b : Byte) (r : RegIdx) : readReg (setDt s b) r = readReg s r := rfl

/-! ### setSt -/

@[simp] theorem setSt_v (s : State) (b : Byte) : (setSt s b).v = s.v := rfl
@[simp] theorem setSt_i (s : State) (b : Byte) : (setSt s b).i = s.i := rfl
@[simp] theorem setSt_pc (s : State) (b : Byte) : (setSt s b).pc = s.pc := rfl
@[simp] theorem setSt_sp (s : State) (b : Byte) : (setSt s b).sp = s.sp := rfl
@[simp] theorem setSt_stack (s : State) (b : Byte) : (setSt s b).stack = s.stack := rfl
@[simp] theorem setSt_dt (s : State) (b : Byte) : (setSt s b).dt = s.dt := rfl
@[simp] theorem setSt_st (s : State) (b : Byte) : (setSt s b).st = b := rfl
@[simp] theorem setSt_fb (s : State) (b : Byte) : (setSt s b).fb = s.fb := rfl
@[simp] theorem setSt_keys (s : State) (b : Byte) : (setSt s b).keys = s.keys := rfl
@[simp] theorem setSt_mem (s : State) (b : Byte) : (setSt s b).mem = s.mem := rfl
@[simp] theorem setSt_diags (s : State) (b : Byte) : (setSt s b).diags = s.diags := rfl
@[simp] theorem setSt_draws (s : State) (b : Byte) : (setSt s b).draws = s.draws := rfl
@[simp] theorem readReg_setSt (s : State) (b : Byte) (r : RegIdx) : readReg (setSt s b) r = readReg s r := rfl

/-! ### emit -/

@[simp] theorem emit_v (s : State) (d : Diag) : (emit s d).v = s.v := rfl
@[simp] theorem emit_i (s : State) (d : Diag) : (emit s d).i = s.i := rfl
@[simp] theorem emit_pc (s : State) (d : Diag) : (emit s d).pc = s.pc := rfl
@[simp] theorem emit_sp (s : State) (d : Diag) : (emit s d).sp = s.sp := rfl
@[simp] theorem emit_stack (s : State) (d : Diag) : (emit s d).stack = s.stack := rfl
@[simp] theorem emit_dt (s : State) (d : Diag) : (emit s d).dt = s.dt := rfl
@[simp] theorem emit_st (s : State) (d : Diag) : (emit s d).st = s.st := rfl
@[simp] theorem emit_fb (s : State) (d : Diag) : (emit s d).fb = s.fb := rfl
@[simp] theorem emit_keys (s : State) (d : Diag) : (emit s d).keys = s.keys := rfl
@[simp] theorem emit_mem (s : State) (d : Diag) : (emit s d).mem = s.mem := rfl
@[simp] theorem emit_diags (s : State) (d : Diag) : (emit s d).diags = s.diags ++ [d] := rfl
@[simp] theorem emit_draws (s : State) (d : Diag) : (emit s d).draws = s.draws := rfl
@[simp] theorem readReg_emit (s : State) (d : Diag) (r : RegIdx) : readReg (emit s d) r = readReg s r := rfl

/-! ### recover -/

@[simp] theorem recover_v (s : State) (d : Diag) : (recover s d).v = s.v := rfl
@[simp] theorem recover_i (s : State) (d : Diag) : (recover s d).i = s.i := rfl
@[simp] theorem recover_pc (s : State) (d : Diag) : (recover s d).pc = pcAfter s 1 := rfl
@[simp] theorem recover_sp (s : State) (d : Diag) : (recover s d).sp = s.sp := rfl
@[simp] theorem recover_stack (s : State) (d : Diag) : (recover s d).stack = s.stack := rfl
@[simp] theorem recover_dt (s : State) (d : Diag) : (recover s d).dt = s.dt := rfl
@[simp] theorem recover_st (s : State) (d : Diag) : (recover s d).st = s.st := rfl
@[simp] theorem recover_fb (s : State) (d : Diag) : (recover s d).fb = s.fb := rfl
@[simp] theorem recover_keys (s : State) (d : Diag) : (recover s d).keys = s.keys := rfl
@[simp] theorem recover_mem (s : State) (d : Diag) : (recover s d).mem = s.mem := rfl
@[simp] theorem recover_diags (s : State) (d : Diag) : (recover s d).diags = s.diags ++ [d] := rfl
@[simp] theorem recover_draws (s : State) (d : Diag) : (recover s d).draws = s.draws := rfl
@[simp] theorem readReg_recover (s : State) (d : Diag) (r : RegIdx) : readReg (recover s d) r = readReg s r := rfl

/-! ### push -/

@[simp] theorem push_v (s : State) (a : Word) (h : s.sp.val < Config.stackDepth) : (push s a h).v = s.v := rfl
@[simp] theorem push_i (s : State) (a : Word) (h : s.sp.val < Config.stackDepth) : (push s a h).i = s.i := rfl
@[simp] theorem push_pc (s : State) (a : Word) (h : s.sp.val < Config.stackDepth) : (push s a h).pc = s.pc := rfl
@[simp] theorem push_sp (s : State) (a : Word) (h : s.sp.val < Config.stackDepth) : (push s a h).sp = ⟨s.sp.val + 1, by omega⟩ := rfl
@[simp] theorem push_stack (s : State) (a : Word) (h : s.sp.val < Config.stackDepth) : (push s a h).stack = s.stack.set s.sp.val a h := rfl
@[simp] theorem push_dt (s : State) (a : Word) (h : s.sp.val < Config.stackDepth) : (push s a h).dt = s.dt := rfl
@[simp] theorem push_st (s : State) (a : Word) (h : s.sp.val < Config.stackDepth) : (push s a h).st = s.st := rfl
@[simp] theorem push_fb (s : State) (a : Word) (h : s.sp.val < Config.stackDepth) : (push s a h).fb = s.fb := rfl
@[simp] theorem push_keys (s : State) (a : Word) (h : s.sp.val < Config.stackDepth) : (push s a h).keys = s.keys := rfl
@[simp] theorem push_mem (s : State) (a : Word) (h : s.sp.val < Config.stackDepth) : (push s a h).mem = s.mem := rfl
@[simp] theorem push_diags (s : State) (a : Word) (h : s.sp.val < Config.stackDepth) : (push s a h).diags = s.diags := rfl
@[simp] theorem push_draws (s : State) (a : Word) (h : s.sp.val < Config.stackDepth) : (push s a h).draws = s.draws := rfl
@[simp] theorem readReg_push (s : State) (a : Word) (h : s.sp.val < Config.stackDepth) (r : RegIdx) : readReg (push s a h) r = readReg s r := rfl

/-! ### popToPc -/

@[simp] theorem popToPc_v (s : State) (h : 0 < s.sp.val) : (popToPc s h).v = s.v := rfl
@[simp] theorem popToPc_i (s : State) (h : 0 < s.sp.val) : (popToPc s h).i = s.i := rfl
@[simp] theorem popToPc_pc (s : State) (h : 0 < s.sp.val) : (popToPc s h).pc = s.stack[s.sp.val - 1]'(by omega) := rfl
@[simp] theorem popToPc_sp (s : State) (h : 0 < s.sp.val) : (popToPc s h).sp = ⟨s.sp.val - 1, by omega⟩ := rfl
@[simp] theorem popToPc_stack (s : State) (h : 0 < s.sp.val) : (popToPc s h).stack = s.stack := rfl
@[simp] theorem popToPc_dt (s : State) (h : 0 < s.sp.val) : (popToPc s h).dt = s.dt := rfl
@[simp] theorem popToPc_st (s : State) (h : 0 < s.sp.val) : (popToPc s h).st = s.st := rfl
@[simp] theorem popToPc_fb (s : State) (h : 0 < s.sp.val) : (popToPc s h).fb = s.fb := rfl
@[simp] theorem popToPc_keys (s : State) (h : 0 < s.sp.val) : (popToPc s h).keys = s.keys := rfl
@[simp] theorem popToPc_mem (s : State) (h : 0 < s.sp.val) : (popToPc s h).mem = s.mem := rfl
@[simp] theorem popToPc_diags (s : State) (h : 0 < s.sp.val) : (popToPc s h).diags = s.diags := rfl
@[simp] theorem popToPc_draws (s : State) (h : 0 < s.sp.val) : (popToPc s h).draws = s.draws := rfl
@[simp] theorem readReg_popToPc (s : State) (h : 0 < s.sp.val) (r : RegIdx) : readReg (popToPc s h) r = readReg s r := rfl

/-! ### setFb -/

@[simp] theorem setFb_v (s : State) (f : Framebuffer) : (setFb s f).v = s.v := rfl
@[simp] theorem setFb_i (s : State) (f : Framebuffer) : (setFb s f).i = s.i := rfl
@[simp] theorem setFb_pc (s : State) (f : Framebuffer) : (setFb s f).pc = s.pc := rfl
@[simp] theorem setFb_sp (s : State) (f : Framebuffer) : (setFb s f).sp = s.sp := rfl
@[simp] theorem setFb_stack (s : State) (f : Framebuffer) : (setFb s f).stack = s.stack := rfl
@[simp] theorem setFb_dt (s : State) (f : Framebuffer) : (setFb s f).dt = s.dt := rfl
@[simp] theorem setFb_st (s : State) (f : Framebuffer) : (setFb s f).st = s.st := rfl
@[simp] theorem setFb_fb (s : State) (f : Framebuffer) : (setFb s f).fb = f := rfl
@[simp] theorem setFb_keys (s : State) (f : Framebuffer) : (setFb s f).keys = s.keys := rfl
@[simp] theorem setFb_mem (s : State) (f : Framebuffer) : (setFb s f).mem = s.mem := rfl
@[simp] theorem setFb_diags (s : State) (f : Framebuffer) : (setFb s f).diags = s.diags := rfl
@[simp] theorem setFb_draws (s : State) (f : Framebuffer) : (setFb s f).draws = s.draws := rfl
@[simp] theorem readReg_setFb (s : State) (f : Framebuffer) (r : RegIdx) : readReg (setFb s f) r = readReg s r := rfl

/-! ### countDraw -/

@[simp] theorem countDraw_v (s : State) : (countDraw s).v = s.v := rfl
@[simp] theorem countDraw_i (s : State) : (countDraw s).i = s.i := rfl
@[simp] theorem countDraw_pc (s : State) : (countDraw s).pc = s.pc := rfl
@[simp] theorem countDraw_sp (s : State) : (countDraw s).sp = s.sp := rfl
@[simp] theorem countDraw_stack (s : State) : (countDraw s).stack = s.stack := rfl
@[simp] theorem countDraw_dt (s : State) : (countDraw s).dt = s.dt := rfl
@[simp] theorem countDraw_st (s : State) : (countDraw s).st = s.st := rfl
@[simp] theorem countDraw_fb (s : State) : (countDraw s).fb = s.fb := rfl
@[simp] theorem countDraw_keys (s : State) : (countDraw s).keys = s.keys := rfl
@[simp] theorem countDraw_mem (s : State) : (countDraw s).mem = s.mem := rfl
@[simp] theorem countDraw_diags (s : State) : (countDraw s).diags = s.diags := rfl
@[simp] theorem countDraw_draws (s : State) : (countDraw s).draws = s.draws + 1 := rfl
@[simp] theorem readReg_countDraw (s : State) (r : RegIdx) : readReg (countDraw s) r = readReg s r := rfl

/-! ### Reading a register after writing one -/

/-- The register written reads as written, every other one as before (R12, R20). -/
theorem readReg_writeReg (s : State) (x : RegIdx) (b : Byte) (r : RegIdx) :
    readReg (writeReg s x b) r = if r = x then b else readReg s r := by
  simp only [readReg, writeReg, Vector.get_eq_getElem, Vector.getElem_set, Fin.ext_iff, eq_comm]

@[simp] theorem readReg_writeReg_self (s : State) (x : RegIdx) (b : Byte) : readReg (writeReg s x b) x = b := by
  simp [readReg_writeReg]

theorem readReg_writeReg_ne (s : State) {x r : RegIdx} (b : Byte) (h : r ≠ x) :
    readReg (writeReg s x b) r = readReg s r := by
  simp [readReg_writeReg, h]

end Sys2Proof.Machine
end

