-- ==== Sys2Proof/Laws/Store.lean ====
section
/-! SUPPORT. What the store operations do: a read after a write, the canonical form, and the port's two operations
(20_memory.md R52, R53, R60). No premise on the memory is needed to read back what was written. -/

namespace Sys2Proof.Machine

/-! ## Reading what was written -/

theorem Memory.read_erase_ne (m : Memory) {a a' : Nat} (h : a' ≠ a) :
    (Memory.erase m a).read a' = m.read a' := by
  induction m with
  | nil => rfl
  | cons c m ih =>
    by_cases hc : c.1 = a
    · simpa [Memory.erase, Memory.read, hc, Ne.symm h] using ih
    · by_cases h' : c.1 = a' <;> simp_all [Memory.erase, Memory.read]

theorem Memory.read_erase_self (m : Memory) (a : Nat) : (Memory.erase m a).read a = initialByte a := by
  induction m with
  | nil => rfl
  | cons c m ih => by_cases hc : c.1 = a <;> simp_all [Memory.erase, Memory.read]

theorem Memory.read_insert_ne (m : Memory) {a a' : Nat} (b : Byte) (h : a' ≠ a) :
    (Memory.insert a b m).read a' = m.read a' := by
  induction m with
  | nil => simp [Memory.insert, Memory.read, Ne.symm h]
  | cons c m ih => by_cases hc : a < c.1 <;> simp [Memory.insert, Memory.read, hc, ih, Ne.symm h]

theorem Memory.read_insert_self (m : Memory) (a : Nat) (b : Byte) (h : ∀ c ∈ m, c.1 ≠ a) :
    (Memory.insert a b m).read a = b := by
  induction m with
  | nil => simp [Memory.insert, Memory.read]
  | cons c m ih =>
    have hc : c.1 ≠ a := h c (by simp)
    have ih := ih (fun d hd => h d (by simp [hd]))
    by_cases hlt : a < c.1 <;> simp [Memory.insert, Memory.read, hlt, hc, ih]

theorem Memory.erase_no_key (m : Memory) (a : Nat) : ∀ c ∈ Memory.erase m a, c.1 ≠ a := by
  simp [Memory.erase]

/-- A read after a write: the byte written at its address, the old byte everywhere else. -/
theorem Memory.read_write (m : Memory) (a : Nat) (b : Byte) (a' : Nat) :
    (m.write a b).read a' = if a' = a then b else m.read a' := by
  unfold Memory.write
  by_cases h : a' = a
  · subst h
    split
    · next hb => simp [Memory.read_erase_self, hb]
    · simp [Memory.read_insert_self _ _ _ (Memory.erase_no_key m a')]
  · split <;> simp [h, Memory.read_insert_ne, Memory.read_erase_ne]

/-! ## The canonical form -/

theorem Memory.risingFrom_mono {lo lo' : Nat} (h : lo' ≤ lo) :
    ∀ {m : Memory}, Memory.risingFrom lo m = true → Memory.risingFrom lo' m = true
  | [], _ => rfl
  | c :: m, hr => by
    simp only [Memory.risingFrom, Bool.and_eq_true, decide_eq_true_eq] at hr ⊢
    exact ⟨by omega, hr.2⟩

theorem Memory.risingFrom_erase (a : Nat) :
    ∀ {lo : Nat} {m : Memory}, Memory.risingFrom lo m = true → Memory.risingFrom lo (Memory.erase m a) = true
  | _, [], _ => rfl
  | lo, c :: m, hr => by
    simp only [Memory.risingFrom, Bool.and_eq_true, decide_eq_true_eq] at hr
    by_cases hc : c.1 = a
    · simpa [Memory.erase, hc] using Memory.risingFrom_erase a (Memory.risingFrom_mono (by omega) hr.2)
    · simpa [Memory.erase, Memory.risingFrom, hc, hr.1] using Memory.risingFrom_erase a hr.2

theorem Memory.risingFrom_insert (a : Nat) (b : Byte) :
    ∀ {lo : Nat} {m : Memory}, lo ≤ a → (∀ c ∈ m, c.1 ≠ a) → Memory.risingFrom lo m = true →
      Memory.risingFrom lo (Memory.insert a b m) = true
  | lo, [], h, _, _ => by simp [Memory.insert, Memory.risingFrom, h]
  | lo, c :: m, h, hne, hr => by
    simp only [Memory.risingFrom, Bool.and_eq_true, decide_eq_true_eq] at hr
    have hca : c.1 ≠ a := hne c (by simp)
    by_cases hc : a < c.1
    · simp only [Memory.insert, hc, if_true, Memory.risingFrom, Bool.and_eq_true, decide_eq_true_eq]
      exact ⟨h, by omega, hr.2⟩
    · simp only [Memory.insert, hc, if_false, Memory.risingFrom, Bool.and_eq_true, decide_eq_true_eq]
      exact ⟨hr.1, Memory.risingFrom_insert a b (by omega) (fun d hd => hne d (by simp [hd])) hr.2⟩

theorem Memory.mem_insert {a : Nat} {b : Byte} {d : Host.Cell} :
    ∀ {m : Memory}, d ∈ Memory.insert a b m → d = (a, b) ∨ d ∈ m
  | [], h => by simpa [Memory.insert] using h
  | c :: m, h => by
    unfold Memory.insert at h
    split at h
    · simpa using h
    · rcases List.mem_cons.1 h with h | h
      · exact .inr (by simp [h])
      · exact (Memory.mem_insert h).imp_right (by simp; exact .inr ·)

/-- A write inside the store keeps the canonical form. -/
theorem Memory.wf_write {m : Memory} (h : m.wf = true) {a : Nat} (ha : a < memSize) (b : Byte) :
    (m.write a b).wf = true := by
  simp only [Memory.wf, Bool.and_eq_true, List.all_eq_true, decide_eq_true_eq, bne_iff_ne] at h ⊢
  unfold Memory.write
  split
  · exact ⟨Memory.risingFrom_erase a h.1, fun c hc => h.2 c (List.mem_filter.1 hc).1⟩
  · next hb =>
    refine ⟨Memory.risingFrom_insert a b (Nat.zero_le a) (Memory.erase_no_key m a) (Memory.risingFrom_erase a h.1), ?_⟩
    intro c hc
    rcases Memory.mem_insert hc with rfl | hc
    · exact ⟨ha, hb⟩
    · exact h.2 c (List.mem_filter.1 hc).1

/-- The constructed store is canonical. -/
theorem Memory.wf_reset : State.reset.mem.wf = true := by decide

/-! ## The port (R52, R53) -/

/-- What `MemRead` gives (R52). -/
@[simp] theorem memRead_fst (s : State) (a : Nat) : (memRead s a).1 = Safety.portByte s a := by
  unfold memRead Safety.portByte; split <;> rfl

/-- What `MemRead` does to the state: it adds the bounds event of the address, if it has one (R52). -/
theorem memRead_snd (s : State) (a : Nat) :
    (memRead s a).2 = { s with diags := s.diags ++ Safety.boundsEvents .read [a] } := by
  unfold memRead Safety.boundsEvents
  split
  · next h => simp [Nat.not_le.2 h]
  · next h => simp [Nat.le_of_not_lt h, emit]

/-- What `MemWrite` does to the store, seen through the read of one byte (R53). -/
theorem memWrite_read (s : State) (a : Nat) (b : Byte) (a' : Nat) :
    (memWrite s a b).mem.read a' = if a' = a ∧ a < memSize then b else s.mem.read a' := by
  unfold memWrite
  by_cases h : a < memSize <;> simp [h, Memory.read_write, emit]

/-- What `MemWrite` does to everything but the store (R53). -/
theorem memWrite_rest (s : State) (a : Nat) (b : Byte) :
    memWrite s a b =
      { s with mem := (memWrite s a b).mem, diags := s.diags ++ Safety.boundsEvents .write [a] } := by
  unfold memWrite Safety.boundsEvents
  split
  · next h => simp [Nat.not_le.2 h]
  · next h => simp [Nat.le_of_not_lt h, emit]

/-- `MemWrite` keeps the canonical form, at any address (R53). -/
theorem memWrite_wf {s : State} (h : s.mem.wf = true) (a : Nat) (b : Byte) : (memWrite s a b).mem.wf = true := by
  unfold memWrite
  split
  · next ha => exact Memory.wf_write h ha b
  · exact h

/-- Bytes placed in the store: the byte of the list at its place, the old byte everywhere else. -/
theorem placeBytes_read (bytes : List Byte) :
    ∀ (m : Memory) (a a' : Nat), (placeBytes m a bytes).read a' =
      if a ≤ a' ∧ a' < a + bytes.length then bytes.getD (a' - a) 0 else m.read a' := by
  induction bytes with
  | nil => intro m a a'; rw [if_neg (by simp)]; rfl
  | cons b bs ih =>
    intro m a a'
    simp only [placeBytes, ih, Memory.read_write, List.length_cons]
    by_cases h1 : a' = a
    · subst h1; simp
    · by_cases h2 : a + 1 ≤ a' ∧ a' < a + 1 + bs.length
      · have h3 : a ≤ a' ∧ a' < a + (bs.length + 1) := by omega
        have h4 : a' - a = a' - (a + 1) + 1 := by omega
        rw [if_pos h2, if_pos h3, h4, List.getD_cons_succ]
      · have h3 : ¬ (a ≤ a' ∧ a' < a + (bs.length + 1)) := by omega
        rw [if_neg h2, if_neg h3, if_neg h1]

/-- Bytes placed inside the store keep the canonical form. -/
theorem placeBytes_wf (bytes : List Byte) :
    ∀ {m : Memory} {a : Nat}, m.wf = true → a + bytes.length ≤ memSize → (placeBytes m a bytes).wf = true := by
  induction bytes with
  | nil => intro m a h _; exact h
  | cons b bs ih =>
    intro m a h ha
    simp only [List.length_cons] at ha
    exact ih (Memory.wf_write h (by omega) b) (by omega)

end Sys2Proof.Machine
end

