-- ==== Sys2Proof/Laws/Ops.lean ====
section
/-! SUPPORT. One lemma for each shared operation that says everything it can do: fetch, the transfers of several
registers, one sprite byte (40_control_flow.md R100; 43_index_memory.md R144 to R146; 45_display.md R161). -/

namespace Sys2Proof.Machine

/-! ## Bounds events -/

@[simp] theorem boundsEvents_nil (k : Access) : Safety.boundsEvents k [] = [] := rfl

theorem boundsEvents_cons (k : Access) (a : Nat) (as : List Nat) :
    Safety.boundsEvents k (a :: as) = Safety.boundsEvents k [a] ++ Safety.boundsEvents k as := by
  unfold Safety.boundsEvents
  by_cases h : memSize ≤ a <;> simp [h]

/-- Accesses inside the store emit nothing. -/
theorem boundsEvents_inside (k : Access) {as : List Nat} (h : ∀ a ∈ as, a < memSize) :
    Safety.boundsEvents k as = [] := by
  simp only [Safety.boundsEvents, List.map_eq_nil_iff, List.filter_eq_nil_iff]
  intro a ha
  simpa using h a ha

/-- There are at most as many events as accesses. -/
theorem boundsEvents_length (k : Access) (as : List Nat) : (Safety.boundsEvents k as).length ≤ as.length := by
  simpa [Safety.boundsEvents] using List.length_filter_le _ as

/-! ## Fetch (R100) -/

/-- Fetch gives the two bytes the port gives at PC and PC + 1, and adds their bounds events. -/
theorem fetch_eq (s : State) :
    fetch s = (composeWord (Safety.portByte s s.pc.toNat) (Safety.portByte s (s.pc.toNat + 1)),
      { s with diags := s.diags ++ Safety.boundsEvents .read [s.pc.toNat, s.pc.toNat + 1] }) := by
  rw [boundsEvents_cons]
  simp only [fetch, memRead_fst, memRead_snd, List.append_assoc]
  rfl

/-- Inside the store, fetch leaves the state alone. -/
theorem fetch_inside {s : State} (h : s.pc.toNat + 1 < memSize) :
    fetch s = (composeWord (s.mem.read s.pc.toNat) (s.mem.read (s.pc.toNat + 1)), s) := by
  have h0 : s.pc.toNat < memSize := by omega
  simp [fetch, memRead, h, h0]

/-! ## Transfers of several registers (R145, R146) -/

/-- The registers of FX55 and FX65 are those up to x. -/
@[simp] theorem mem_regsUpTo (r x : RegIdx) : r ∈ regsUpTo x ↔ r ≤ x := by simp [regsUpTo]

/-- They come in ascending order, 0 to x. -/
theorem regsUpTo_map_val (x : RegIdx) : (regsUpTo x).map Fin.val = List.range (x.val + 1) := by
  revert x; decide

/-- Storing registers changes the store and adds the bounds events of its addresses, in order; nothing else. -/
theorem storeRegs_rest (base : Nat) (rs : List RegIdx) :
    ∀ s : State, storeRegs base rs s =
      { s with
        mem := (storeRegs base rs s).mem
        diags := s.diags ++ Safety.boundsEvents .write (rs.map (fun r => base + r.val)) } := by
  induction rs with
  | nil => intro s; simp [storeRegs]
  | cons r rs ih =>
    intro s
    simp only [storeRegs]
    rw [ih, memWrite_rest s]
    rw [List.map_cons, boundsEvents_cons _ _ (rs.map _), List.append_assoc]

/-- Storing registers leaves every byte that is not one of the addresses as it was. -/
theorem storeRegs_read_other {base a : Nat} {rs : List RegIdx} (h : ∀ r ∈ rs, a ≠ base + r.val) :
    ∀ s : State, (storeRegs base rs s).mem.read a = s.mem.read a := by
  induction rs with
  | nil => intro s; rfl
  | cons r rs ih =>
    intro s
    have hr : a ≠ base + r.val := h r (by simp)
    simp only [storeRegs]
    rw [ih (fun q hq => h q (by simp [hq])), memWrite_read]
    simp [hr]

/-- A write to the store changes no register. -/
@[simp] theorem readReg_memWrite (s : State) (a : Nat) (b : Byte) (r : RegIdx) :
    readReg (memWrite s a b) r = readReg s r := by
  rw [memWrite_rest]; rfl

/-- A register stored inside the store is the byte at its address. -/
theorem storeRegs_read_mem {base : Nat} {r : RegIdx} {rs : List RegIdx} (hr : r ∈ rs) (h : base + r.val < memSize) :
    ∀ s : State, (storeRegs base rs s).mem.read (base + r.val) = readReg s r := by
  induction rs with
  | nil => simp at hr
  | cons q rs ih =>
    intro s
    simp only [storeRegs]
    by_cases hm : r ∈ rs
    · rw [ih hm, readReg_memWrite]
    · have hq : r = q := by simpa [hm] using hr
      subst hq
      rw [storeRegs_read_other, memWrite_read]
      · simp [h]
      · intro q hq he
        have : r = q := by apply Fin.ext; omega
        exact hm (this ▸ hq)

/-- Storing registers keeps the canonical form. -/
theorem storeRegs_wf (base : Nat) (rs : List RegIdx) :
    ∀ {s : State}, s.mem.wf = true → (storeRegs base rs s).mem.wf = true := by
  induction rs with
  | nil => intro s h; exact h
  | cons r rs ih => intro s h; exact ih (memWrite_wf h _ _)

/-- Loading registers changes the registers and adds the bounds events of its addresses, in order; nothing else. -/
theorem loadRegs_rest (base : Nat) (rs : List RegIdx) :
    ∀ s : State, loadRegs base rs s =
      { s with
        v := (loadRegs base rs s).v
        diags := s.diags ++ Safety.boundsEvents .read (rs.map (fun r => base + r.val)) } := by
  induction rs with
  | nil => intro s; simp [loadRegs]
  | cons r rs ih =>
    intro s
    simp only [loadRegs]
    rw [ih, memRead_snd]
    rw [List.map_cons, boundsEvents_cons _ _ (rs.map _)]
    simp only [writeReg, List.append_assoc]

/-- A loaded register holds what the port gives at its address; the others are as they were. -/
theorem loadRegs_reg (base : Nat) (rs : List RegIdx) (r : RegIdx) :
    ∀ s : State, readReg (loadRegs base rs s) r =
      if r ∈ rs then Safety.portByte s (base + r.val) else readReg s r := by
  induction rs with
  | nil => intro s; simp [loadRegs]
  | cons q rs ih =>
    intro s
    simp only [loadRegs]
    rw [ih]
    have hp : ∀ (b : Byte) (a : Nat), Safety.portByte (writeReg (memRead s (base + q.val)).2 q b) a =
        Safety.portByte s a := by
      intro b a; rw [memRead_snd]; rfl
    have hv : ∀ p, readReg (memRead s (base + q.val)).2 p = readReg s p := by
      intro p; rw [memRead_snd]; rfl
    rw [hp, readReg_writeReg, memRead_fst, hv]
    by_cases hm : r ∈ rs
    · simp [hm]
    · by_cases hq : r = q
      · subst hq; simp
      · simp [hm, hq]

/-! ## The framebuffer and one sprite byte (R36, R161) -/

/-- Toggling a cell inverts it and leaves every other cell. -/
theorem cell_toggleCell (fb : Framebuffer) (r r' : FbRow) (c c' : FbCol) :
    cell (toggleCell fb r c) r' c' = (cell fb r' c' ^^ decide (r' = r ∧ c' = c)) := by
  by_cases hr : r' = r
  · subst hr
    by_cases hc : c' = c
    · subst hc; simp [cell, toggleCell, Vector.get_eq_getElem]
    · have : c.val ≠ c'.val := fun h => hc (Fin.ext h.symm)
      simp [cell, toggleCell, Vector.get_eq_getElem, hc, this]
  · have : r.val ≠ r'.val := fun h => hr (Fin.ext h.symm)
    simp [cell, toggleCell, Vector.get_eq_getElem, hr, this]

/-- Two framebuffers with the same cells are equal. -/
theorem framebuffer_ext {f g : Framebuffer} (h : ∀ r c, cell f r c = cell g r c) : f = g := by
  apply Vector.ext
  intro r hr
  apply Vector.ext
  intro c hc
  simpa [cell, Vector.get_eq_getElem] using h ⟨r, hr⟩ ⟨c, hc⟩

/-- Columns of one sprite byte fall on different framebuffer columns (R164). -/
theorem colOf_inj {x p q : Nat} (hp : p < 8) (hq : q < 8) (h : colOf (x + p) = colOf (x + q)) : p = q := by
  have h := congrArg Fin.val h
  simp only [colOf, Config.fbWidth] at h
  omega

/-- Sprite rows fall on different framebuffer rows (R164). -/
theorem rowOf_inj {y p q : Nat} (hp : p < 16) (hq : q < 16) (h : rowOf (y + p) = rowOf (y + q)) : p = q := by
  have h := congrArg Fin.val h
  simp only [rowOf, Config.fbHeight] at h
  omega

/-- One sprite byte toggles, in its row, exactly the cells under its 1 bits (R161). -/
theorem cell_blitCols (b : Byte) (x : Nat) (r : FbRow) (cols : List Nat) :
    cols.Nodup → (∀ k ∈ cols, k < 8) → ∀ (p : Framebuffer × Bool) (r' : FbRow) (c' : FbCol),
      cell (blitCols b x r cols p).1 r' c' =
        (cell p.1 r' c' ^^ decide (r' = r ∧ ∃ k ∈ cols, b.getLsbD (7 - k) = true ∧ c' = colOf (x + k))) := by
  induction cols with
  | nil => intro _ _ p r' c'; simp [blitCols]
  | cons k cols ih =>
    intro hn h8 p r' c'
    have hk : k < 8 := h8 k (by simp)
    have hn' := List.nodup_cons.1 hn
    have ih := ih hn'.2 (fun q hq => h8 q (by simp [hq]))
    simp only [blitCols]
    rw [ih]
    by_cases hb : b.getLsbD (7 - k) = true
    · rw [if_pos hb]
      simp only [plot, cell_toggleCell, Bool.xor_assoc]
      congr 1
      by_cases hr : r' = r
      · by_cases hc : c' = colOf (x + k)
        · have hno : ¬ ∃ q ∈ cols, b.getLsbD (7 - q) = true ∧ c' = colOf (x + q) := by
            rintro ⟨q, hq, -, he⟩
            have : k = q := colOf_inj hk (h8 q (by simp [hq])) (hc ▸ he)
            exact hn'.1 (this ▸ hq)
          have hyes : ∃ q ∈ k :: cols, b.getLsbD (7 - q) = true ∧ c' = colOf (x + q) := ⟨k, by simp, hb, hc⟩
          rw [decide_eq_true ⟨hr, hc⟩, decide_eq_false (fun h => hno h.2), decide_eq_true ⟨hr, hyes⟩, Bool.xor_false]
        · simp [hr, hc]
      · simp [hr]
    · rw [if_neg hb]
      congr 1
      simp [hb]

/-- One sprite byte reports a collision exactly when a cell under one of its 1 bits was 1 (R161, R164). -/
theorem coll_blitCols (b : Byte) (x : Nat) (r : FbRow) (cols : List Nat) :
    cols.Nodup → (∀ k ∈ cols, k < 8) → ∀ (p : Framebuffer × Bool),
      (blitCols b x r cols p).2 =
        (p.2 || decide (∃ k ∈ cols, b.getLsbD (7 - k) = true ∧ cell p.1 r (colOf (x + k)) = true)) := by
  induction cols with
  | nil => intro _ _ p; simp [blitCols]
  | cons k cols ih =>
    intro hn h8 p
    have hk : k < 8 := h8 k (by simp)
    have hn' := List.nodup_cons.1 hn
    have ih := ih hn'.2 (fun q hq => h8 q (by simp [hq]))
    simp only [blitCols]
    rw [ih]
    by_cases hb : b.getLsbD (7 - k) = true
    · rw [if_pos hb]
      simp only [plot, Bool.or_assoc]
      congr 1
      have hsame : ∀ q ∈ cols, cell (toggleCell p.1 r (colOf (x + k))) r (colOf (x + q)) =
          cell p.1 r (colOf (x + q)) := by
        intro q hq
        have hne : colOf (x + q) ≠ colOf (x + k) := by
          intro he
          have : q = k := colOf_inj (h8 q (by simp [hq])) hk he
          exact hn'.1 (this ▸ hq)
        simp [cell_toggleCell, hne]
      have : (∃ q ∈ cols, b.getLsbD (7 - q) = true ∧
            cell (toggleCell p.1 r (colOf (x + k))) r (colOf (x + q)) = true) ↔
          ∃ q ∈ cols, b.getLsbD (7 - q) = true ∧ cell p.1 r (colOf (x + q)) = true :=
        exists_congr fun q => and_congr_right fun hq => by rw [hsame q hq]
      simp [this, hb]
    · rw [if_neg hb]
      simp [hb]

/-- Drawing rows changes the framebuffer and adds the bounds events of the rows' reads, in order; nothing else
(R165). -/
theorem blitRows_rest (x y base : Nat) (rows : List Nat) :
    ∀ (coll : Bool) (s : State), (blitRows x y base rows coll s).2 =
      { s with
        fb := (blitRows x y base rows coll s).2.fb
        diags := s.diags ++ Safety.boundsEvents .read (rows.map (base + ·)) } := by
  induction rows with
  | nil => intro coll s; simp [blitRows]
  | cons k rows ih =>
    intro coll s
    simp only [blitRows]
    rw [ih, memRead_snd]
    rw [List.map_cons, boundsEvents_cons _ _ (rows.map _)]
    simp only [setFb, List.append_assoc]

end Sys2Proof.Machine
end

