-- ==== Sys2Proof/Laws/Operands.lean ====
section
/-! SUPPORT. What each operand form and each PC movement is as a number (30_encoding.md R82; 43_index_memory.md R143,
R144; 44_random_keys_timers.md R154, R158), so that no later proof unfolds one. -/

namespace Sys2Proof.Machine

@[simp] theorem zextAddr_toNat (nnn : Addr12) : (zextAddr nnn).toNat = nnn.toNat := by
  simp [zextAddr]; omega

@[simp] theorem zextByte_toNat (b : Byte) : (zextByte b).toNat = b.toNat := by
  simp [zextByte]; omega

/-- FX29's address needs no reduction (R143). -/
theorem glyphAddr_toNat (b : Byte) : (glyphAddr b).toNat = glyphOffset b.toNat := by
  simp [glyphAddr, glyphOffset, glyphBase, glyphBytes]; omega

/-- The three digits are the decimal digits of the byte (R144). -/
theorem digits_toNat (b : Byte) :
    (hundreds b).toNat = b.toNat / 100 ∧ (tens b).toNat = b.toNat / 10 % 10 ∧ (units b).toNat = b.toNat % 10 := by
  simp only [hundreds, tens, units, BitVec.toNat_ofNat]; omega

/-- The key tested is the byte modulo 16 (R158). -/
theorem keyIndex_val (b : Byte) : (keyIndex b).val = b.toNat % 2 ^ 4 := by simp [keyIndex]

/-- The effective address is the sum of naturals (R54). -/
theorem effAddr_eq (s : State) (k : Nat) : effAddr s k = s.i.toNat + k := rfl

/-- The address `k` words on, as a number (R27). -/
theorem pcAfter_toNat (s : State) (k : Nat) :
    (pcAfter s k).toNat = (s.pc.toNat + k * Config.instrBytes) % 2 ^ Config.pcWidth := by
  simp [pcAfter, BitVec.toNat_add]

/-- A state whose PC is `k` words on has moved by `k` words (R27). -/
theorem pcMovedBy_of {s t : State} {k : Nat} (h : t.pc = pcAfter s k) : Safety.PcMovedBy k s t := by
  rw [Safety.PcMovedBy, h, pcAfter_toNat]

/-- A state whose PC is one word on is at the next word (R27). -/
theorem pcAdvanced_of {s t : State} (h : t.pc = pcAfter s 1) : Safety.PcAdvanced s t := pcMovedBy_of h

/-- Skip moves PC by two words or by one (R110). -/
theorem skipIf_movedBy (c : Bool) (s : State) : Safety.PcMovedBy (if c then 2 else 1) s (skipIf c s) := by
  cases c <;> exact pcMovedBy_of rfl

/-- The first key is the least pressed one (R154). -/
theorem firstKey_eq_some {s : State} {k : KeyIdx} (h : s.keys.get k = true)
    (hl : ∀ j, j < k → s.keys.get j = false) : firstKey s = some k := by
  unfold firstKey
  rw [List.find?_eq_some_iff_append]
  refine ⟨h, (List.finRange Config.numKeys).take k.val, (List.finRange Config.numKeys).drop (k.val + 1), ?_, ?_⟩
  · conv_lhs => rw [← List.take_append_drop k.val (List.finRange Config.numKeys), List.drop_eq_getElem_cons (by simp)]
    simp
  · intro a ha
    rw [List.mem_take_iff_getElem] at ha
    obtain ⟨i, hi, rfl⟩ := ha
    have hi : i < k.val := by simpa using hi
    simpa [keyPressed] using hl _ (Fin.lt_def.2 (by simpa using hi))

/-- There is no first key exactly when none is pressed (R154). -/
theorem firstKey_eq_none {s : State} : firstKey s = none ↔ ∀ k, s.keys.get k = false := by
  simp [firstKey, keyPressed]

end Sys2Proof.Machine
end

