-- ==== Sys2Proof/Laws/Blit.lean ====
section
/-! SUPPORT. What the compositing unit's loop over sprite rows does to a cell and to the collision bit
(45_display.md R161, R164, R165). -/

namespace Sys2Proof.Machine

/-- An exclusive or with a decided proposition. -/
theorem xor_decide_eq_true (a : Bool) (P : Prop) [Decidable P] :
    ((a ^^ decide P) = true) ↔ ¬ (a = true ↔ P) := by
  by_cases h : P <;> cases a <;> simp [h]

/-- Sprite row `row` of the sprite at `base`, drawn at (x, y), has a 1 bit on cell (r, c). -/
def RowCovers (s : State) (x y base row : Nat) (r : FbRow) (c : FbCol) : Prop :=
  r = rowOf (y + row) ∧ ∃ col ∈ List.range 8,
    (Safety.portByte s (base + row)).getLsbD (7 - col) = true ∧ c = colOf (x + col)

/-- The coverage of a sprite is that of its rows. -/
theorem spriteCovers_iff (s : State) (x y n base : Nat) (r : FbRow) (c : FbCol) :
    Safety.SpriteCovers s x y n base r c ↔ ∃ row ∈ List.range n, RowCovers s x y base row r c := by
  constructor
  · rintro ⟨row, col, hrow, hcol, hr, hc, hb⟩
    exact ⟨row, by simpa using hrow, Fin.ext hr.symm, col, by simpa using hcol, hb, Fin.ext hc.symm⟩
  · rintro ⟨row, hrow, hr, col, hcol, hb, hc⟩
    subst hr hc
    exact ⟨row, col, by simpa using hrow, by simpa using hcol, rfl, rfl, hb⟩

/-- Drawing changes no byte of the store. -/
theorem rowCovers_setFb (s : State) (a x y base row : Nat) (f : Framebuffer) (r : FbRow) (c : FbCol) :
    RowCovers (setFb (memRead s a).2 f) x y base row r c ↔ RowCovers s x y base row r c := by
  rw [memRead_snd]; rfl

/-- The cells toggled are exactly those some row of the list covers, for distinct rows below 16 (R164). -/
theorem cell_blitRows (x y base : Nat) (rows : List Nat) :
    rows.Nodup → (∀ k ∈ rows, k < 16) → ∀ (coll : Bool) (s : State) (r : FbRow) (c : FbCol),
      (cell (blitRows x y base rows coll s).2.fb r c = true ↔
        ¬ (cell s.fb r c = true ↔ ∃ row ∈ rows, RowCovers s x y base row r c)) := by
  induction rows with
  | nil => intro _ _ coll s r c; simp [blitRows]
  | cons k rows ih =>
    intro hn h16 coll s r c
    have hn' := List.nodup_cons.1 hn
    have hk : k < 16 := h16 k (by simp)
    simp only [blitRows]
    rw [ih hn'.2 (fun q hq => h16 q (by simp [hq]))]
    simp only [rowCovers_setFb, setFb_fb, memRead_fst]
    rw [cell_blitCols _ _ _ _ List.nodup_range (by simp)]
    have hsplit : (∃ row ∈ k :: rows, RowCovers s x y base row r c) ↔
        RowCovers s x y base k r c ∨ ∃ row ∈ rows, RowCovers s x y base row r c := by simp
    have hexcl : RowCovers s x y base k r c → ¬ ∃ row ∈ rows, RowCovers s x y base row r c := by
      rintro ⟨hr, -⟩ ⟨q, hq, hr', -⟩
      have : k = q := rowOf_inj hk (h16 q (by simp [hq])) (hr ▸ hr')
      exact hn'.1 (this ▸ hq)
    have hbyte : ∀ a : Bool, ((a ^^ decide (r = rowOf (y + k) ∧ ∃ q ∈ List.range 8,
        (Safety.portByte s (base + k)).getLsbD (7 - q) = true ∧ c = colOf (x + q))) = true) ↔
        ¬ (a = true ↔ RowCovers s x y base k r c) := by
      intro a
      rw [xor_decide_eq_true]
      rfl
    rw [hsplit, hbyte]
    by_cases h1 : RowCovers s x y base k r c
    · simp [h1, hexcl h1]
    · simp [h1]

/-- The collision bit: set before, or some cell that was 1 is covered, for distinct rows below 16 (R164). -/
theorem coll_blitRows (x y base : Nat) (rows : List Nat) :
    rows.Nodup → (∀ k ∈ rows, k < 16) → ∀ (coll : Bool) (s : State),
      ((blitRows x y base rows coll s).1 = true ↔
        coll = true ∨ ∃ r c, cell s.fb r c = true ∧ ∃ row ∈ rows, RowCovers s x y base row r c) := by
  induction rows with
  | nil => intro _ _ coll s; simp [blitRows]
  | cons k rows ih =>
    intro hn h16 coll s
    have hn' := List.nodup_cons.1 hn
    have hk : k < 16 := h16 k (by simp)
    simp only [blitRows]
    rw [ih hn'.2 (fun q hq => h16 q (by simp [hq])), coll_blitCols _ _ _ _ List.nodup_range (by simp)]
    simp only [rowCovers_setFb, setFb_fb, memRead_fst, Bool.or_eq_true, decide_eq_true_eq, or_assoc]
    apply or_congr_right
    have hfirst : (∃ q ∈ List.range 8, (Safety.portByte s (base + k)).getLsbD (7 - q) = true ∧
        cell s.fb (rowOf (y + k)) (colOf (x + q)) = true) ↔
        ∃ r c, cell s.fb r c = true ∧ RowCovers s x y base k r c := by
      constructor
      · rintro ⟨q, hq, hb, hc⟩; exact ⟨_, _, hc, rfl, q, hq, hb, rfl⟩
      · rintro ⟨r, c, hc, hr, q, hq, hb, he⟩; subst hr he; exact ⟨q, hq, hb, hc⟩
    have hrest : (∃ r c, cell (blitCols (Safety.portByte s (base + k)) x (rowOf (y + k)) (List.range 8)
          (s.fb, coll)).1 r c = true ∧ ∃ row ∈ rows, RowCovers s x y base row r c) ↔
        ∃ r c, cell s.fb r c = true ∧ ∃ row ∈ rows, RowCovers s x y base row r c := by
      refine exists_congr fun r => exists_congr fun c => and_congr_left ?_
      rintro ⟨q, hq, hr, -⟩
      have hne : r ≠ rowOf (y + k) := by
        intro he
        have : k = q := rowOf_inj hk (h16 q (by simp [hq])) (he ▸ hr)
        exact hn'.1 (this ▸ hq)
      rw [cell_blitCols _ _ _ _ List.nodup_range (by simp)]
      simp [hne]
    rw [hfirst, hrest]
    constructor
    · rintro (⟨r, c, h, hc⟩ | ⟨r, c, h, q, hq, hc⟩)
      · exact ⟨r, c, h, k, by simp, hc⟩
      · exact ⟨r, c, h, q, by simp [hq], hc⟩
    · rintro ⟨r, c, h, q, hq, hc⟩
      rcases List.mem_cons.1 hq with rfl | hq
      · exact .inl ⟨r, c, h, hc⟩
      · exact .inr ⟨r, c, h, q, hq, hc⟩

end Sys2Proof.Machine
end

