-- ==== Sys2Proof/Laws/Encoding.lean ====
section
/-! SUPPORT. What the fields of an encoded word are, format by format, and which pattern it has (30_encoding.md R81 to
R86); and how the decoder finds the one row a word selects. -/

namespace Sys2Proof

/-! ## Fields of an encoded word (R81, R82) -/

@[simp] theorem fieldNnn_formatA (op : BitVec 4) (nnn : Addr12) : fieldNnn (formatA op nnn) = nnn := by
  ext k hk
  simp only [fieldNnn, formatA, BitVec.getElem_extractLsb', BitVec.getLsbD_append]
  simp [hk]

@[simp] theorem fieldX_formatXI (op : BitVec 4) (x : RegIdx) (nn : Byte) : fieldX (formatXI op x nn) = x := by
  have : (formatXI op x nn).extractLsb' 8 4 = nibble x := by
    ext k hk
    simp only [formatXI, BitVec.getElem_extractLsb', BitVec.getLsbD_append]
    simp [hk]
  simp [fieldX, this, nibble]

@[simp] theorem fieldNn_formatXI (op : BitVec 4) (x : RegIdx) (nn : Byte) : fieldNn (formatXI op x nn) = nn := by
  ext k hk
  simp only [fieldNn, formatXI, BitVec.getElem_extractLsb', BitVec.getLsbD_append]
  simp [hk]

@[simp] theorem fieldX_formatXY (op : BitVec 4) (x y : RegIdx) (f : BitVec 4) : fieldX (formatXY op x y f) = x := by
  have : (formatXY op x y f).extractLsb' 8 4 = nibble x := by
    ext k hk
    simp only [formatXY, BitVec.getElem_extractLsb', BitVec.getLsbD_append]
    have h1 : ¬ (8 + k < 4) := by omega
    have h2 : ¬ (8 + k - 4 < 4) := by omega
    have h3 : 8 + k - 4 - 4 = k := by omega
    simp [hk, h1, h2, h3]
  simp [fieldX, this, nibble]

@[simp] theorem fieldY_formatXY (op : BitVec 4) (x y : RegIdx) (f : BitVec 4) : fieldY (formatXY op x y f) = y := by
  have : (formatXY op x y f).extractLsb' 4 4 = nibble y := by
    ext k hk
    simp only [formatXY, BitVec.getElem_extractLsb', BitVec.getLsbD_append]
    simp [hk]
  simp [fieldY, this, nibble]

@[simp] theorem fieldX_formatD (op : BitVec 4) (x y : RegIdx) (n : RowCount) : fieldX (formatD op x y n) = x :=
  fieldX_formatXY op x y (nibble n)

@[simp] theorem fieldY_formatD (op : BitVec 4) (x y : RegIdx) (n : RowCount) : fieldY (formatD op x y n) = y :=
  fieldY_formatXY op x y (nibble n)

@[simp] theorem fieldN_formatD (op : BitVec 4) (x y : RegIdx) (n : RowCount) : fieldN (formatD op x y n) = n := by
  have : (formatD op x y n).extractLsb' 0 4 = nibble n := by
    ext k hk
    simp only [formatD, BitVec.getElem_extractLsb', BitVec.getLsbD_append]
    simp [hk]
  simp [fieldN, this, nibble]

@[simp] theorem fieldX_formatXF (op : BitVec 4) (x : RegIdx) (f : BitVec 8) : fieldX (formatXF op x f) = x :=
  fieldX_formatXI op x f

/-! ## The pattern of an encoded word (R86) -/

/-- A word matches a pattern when each of its sixteen bits under the mask is the pattern's. -/
theorem admits_of_bits {p : Pattern} {w : Word}
    (h : ∀ k : Nat, k < 16 → (w.getLsbD k && p.mask.getLsbD k) = p.value.getLsbD k) : p.admits w = true := by
  simp only [Pattern.admits, beq_iff_eq]
  ext k hk
  simpa [BitVec.getElem_and, BitVec.getLsbD_eq_getElem, hk] using h k hk

/-- Formats A, XI and D: the pattern fixes the top nibble only. -/
theorem admits_formatA (op : BitVec 4) (nnn : Addr12) :
    Pattern.admits ⟨0xF000#16, op ++ 0#12⟩ (formatA op nnn) = true := by
  refine admits_of_bits fun k hk => ?_
  have hm : (0xF000#16).getLsbD k = decide (12 ≤ k) := by revert k; decide
  simp only [formatA, BitVec.getLsbD_append, hm]
  by_cases h : k < 12 <;> simp [h, Nat.le_of_not_lt]

@[inherit_doc admits_formatA]
theorem admits_formatXI (op : BitVec 4) (x : RegIdx) (nn : Byte) :
    Pattern.admits ⟨0xF000#16, op ++ 0#12⟩ (formatXI op x nn) = true := by
  refine admits_of_bits fun k hk => ?_
  have hm : (0xF000#16).getLsbD k = decide (12 ≤ k) := by revert k; decide
  simp only [formatXI, BitVec.getLsbD_append, hm]
  by_cases h : k < 12
  · simp [h, Nat.not_le.2 h]
  · have h8 : ¬ k < 8 := by omega
    have h4 : ¬ k - 8 < 4 := by omega
    have he : k - 8 - 4 = k - 12 := by omega
    simp [h, h8, h4, he, Nat.le_of_not_lt h]

/-- Format XY: the pattern fixes the top nibble and the low nibble. -/
theorem admits_formatXY (op : BitVec 4) (x y : RegIdx) (f : BitVec 4) :
    Pattern.admits ⟨0xF00F#16, op ++ 0#8 ++ f⟩ (formatXY op x y f) = true := by
  refine admits_of_bits fun k hk => ?_
  have hm : (0xF00F#16).getLsbD k = decide (k < 4 ∨ 12 ≤ k) := by revert k; decide
  simp only [formatXY, BitVec.getLsbD_append, hm]
  by_cases h0 : k < 4
  · simp [h0]
  · by_cases h : k < 12
    · have h1 : k - 4 < 8 := by omega
      simp [h0, h1, Nat.not_le.2 h]
    · have h1 : ¬ k - 4 < 4 := by omega
      have h2 : ¬ k - 4 - 4 < 4 := by omega
      have h3 : ¬ k - 4 < 8 := by omega
      have he : k - 4 - 4 - 4 = k - 4 - 8 := by omega
      simp [h0, h1, h2, h3, he, Nat.le_of_not_lt h]

@[inherit_doc admits_formatA]
theorem admits_formatD (op : BitVec 4) (x y : RegIdx) (n : RowCount) :
    Pattern.admits ⟨0xF000#16, op ++ 0#12⟩ (formatD op x y n) = true := by
  refine admits_of_bits fun k hk => ?_
  have hm : (0xF000#16).getLsbD k = decide (12 ≤ k) := by revert k; decide
  simp only [formatD, BitVec.getLsbD_append, hm]
  by_cases h : k < 12
  · simp [h, Nat.not_le.2 h]
  · have h1 : ¬ k < 4 := by omega
    have h2 : ¬ k - 4 < 4 := by omega
    have h3 : ¬ k - 4 - 4 < 4 := by omega
    have he : k - 4 - 4 - 4 = k - 12 := by omega
    simp [h, h1, h2, h3, he, Nat.le_of_not_lt h]

/-- Format XF: the pattern fixes the top nibble and the low byte. -/
theorem admits_formatXF (op : BitVec 4) (x : RegIdx) (f : BitVec 8) :
    Pattern.admits ⟨0xF0FF#16, op ++ 0#4 ++ f⟩ (formatXF op x f) = true := by
  refine admits_of_bits fun k hk => ?_
  have hm : (0xF0FF#16).getLsbD k = decide (k < 8 ∨ 12 ≤ k) := by revert k; decide
  simp only [formatXF, BitVec.getLsbD_append, hm]
  by_cases h0 : k < 8
  · simp [h0]
  · by_cases h : k < 12
    · have h1 : k - 8 < 4 := by omega
      simp [h0, h1, Nat.not_le.2 h]
    · have h1 : ¬ k - 8 < 4 := by omega
      simp [h0, h1, Nat.le_of_not_lt h]

/-! ## Finding the row (R83, R84) -/

/-- The opcode map is well formed: no pattern asks for a bit outside its mask, and they are pairwise disjoint (R84). -/
theorem opcodeTable_wf : Pattern.wfMap (opcodeTable.map (·.pattern)) = true := by decide

/-- No word matches two disjoint patterns. -/
theorem Pattern.not_admits_of_disjoint {p q : Pattern} {w : Word} (hd : p.disjoint q = true)
    (hp : p.admits w = true) : q.admits w = false := by
  simp only [Pattern.disjoint, bne_iff_ne, ne_eq] at hd
  simp only [Pattern.admits, beq_iff_eq] at hp
  rw [Bool.eq_false_iff]
  intro hq
  simp only [Pattern.admits, beq_iff_eq] at hq
  refine hd (BitVec.eq_of_getLsbD_eq fun k _ => ?_)
  rw [← hp, ← hq]
  simp only [BitVec.getLsbD_and, BitVec.getLsbD_xor, BitVec.getLsbD_zero]
  cases w.getLsbD k <;> cases p.mask.getLsbD k <;> cases q.mask.getLsbD k <;> rfl

/-- In a well-formed map, the row a word matches is the one that is found (R84). -/
theorem find_row {rows : List OpcodeRow} (hwf : Pattern.wfMap (rows.map (·.pattern)) = true) {r : OpcodeRow}
    (hr : r ∈ rows) {w : Word} (hw : r.pattern.admits w = true) :
    rows.find? (fun q => q.pattern.admits w) = some r := by
  induction rows with
  | nil => simp at hr
  | cons q rows ih =>
    simp only [List.map_cons, Pattern.wfMap, Bool.and_eq_true, List.all_map, List.all_eq_true] at hwf
    rcases List.mem_cons.1 hr with rfl | hr
    · simp [hw]
    · have hq : q.pattern.admits w = false := by
        rw [Bool.eq_false_iff]
        intro hq
        have := Pattern.not_admits_of_disjoint (hwf.1.2 r hr) hq
        simp [hw] at this
      simpa [List.find?_cons, hq] using ih hwf.2 hr

/-- A word decodes to what its row builds (R83). -/
theorem decodeWord_of_row {r : OpcodeRow} (hr : r ∈ opcodeTable) {w : Word} (hw : r.pattern.admits w = true) :
    decodeWord w = .ok (r.build w) := by
  simp [decodeWord, find_row opcodeTable_wf hr hw]

/-- What decodes was built by a row its word matches (R83). -/
theorem row_of_decodeWord {w : Word} {i : Instr} (h : decodeWord w = .ok i) :
    ∃ r ∈ opcodeTable, r.pattern.admits w = true ∧ r.build w = i := by
  unfold decodeWord at h
  split at h
  · next r hf =>
    exact ⟨r, List.mem_of_find?_eq_some hf, by simpa using List.find?_some hf, by simpa using h⟩
  · simp at h

end Sys2Proof
end

