-- ==== Sys2Proof/Laws/PerInstr.lean ====
section
/-! SUPPORT. Statements made per instruction. LegalWord: the word of an instruction matches a pattern of the opcode map
(30_encoding.md R83, R86), so no instruction encodes to a decode fault. -/

open Sys2Proof

/-- The word of `i` matches a pattern of R86. -/
def Sys2Proof.Laws.LegalWord.Statement (i : Instr) : Prop :=
  ∃ r ∈ opcodeTable, r.pattern.admits (encode i) = true

open Sys2Proof.Laws.LegalWord

theorem Sys2Proof.Laws.LegalWord.cls : Statement .cls :=
  ⟨opcodeTable[0], List.getElem_mem _, by decide⟩

theorem Sys2Proof.Laws.LegalWord.ret : Statement .ret :=
  ⟨opcodeTable[1], List.getElem_mem _, by decide⟩

theorem Sys2Proof.Laws.LegalWord.jp (nnn : Addr12) : Statement (.jp nnn) :=
  ⟨opcodeTable[2], List.getElem_mem _, admits_formatA 0x1#4 nnn⟩

theorem Sys2Proof.Laws.LegalWord.call (nnn : Addr12) : Statement (.call nnn) :=
  ⟨opcodeTable[3], List.getElem_mem _, admits_formatA 0x2#4 nnn⟩

theorem Sys2Proof.Laws.LegalWord.seVxNn (x : RegIdx) (nn : Byte) : Statement (.seVxNn x nn) :=
  ⟨opcodeTable[4], List.getElem_mem _, admits_formatXI 0x3#4 x nn⟩

theorem Sys2Proof.Laws.LegalWord.sneVxNn (x : RegIdx) (nn : Byte) : Statement (.sneVxNn x nn) :=
  ⟨opcodeTable[5], List.getElem_mem _, admits_formatXI 0x4#4 x nn⟩

theorem Sys2Proof.Laws.LegalWord.seVxVy (x : RegIdx) (y : RegIdx) : Statement (.seVxVy x y) :=
  ⟨opcodeTable[6], List.getElem_mem _, admits_formatXY 0x5#4 x y 0x0#4⟩

theorem Sys2Proof.Laws.LegalWord.ldVxNn (x : RegIdx) (nn : Byte) : Statement (.ldVxNn x nn) :=
  ⟨opcodeTable[7], List.getElem_mem _, admits_formatXI 0x6#4 x nn⟩

theorem Sys2Proof.Laws.LegalWord.addVxNn (x : RegIdx) (nn : Byte) : Statement (.addVxNn x nn) :=
  ⟨opcodeTable[8], List.getElem_mem _, admits_formatXI 0x7#4 x nn⟩

theorem Sys2Proof.Laws.LegalWord.ldVxVy (x : RegIdx) (y : RegIdx) : Statement (.ldVxVy x y) :=
  ⟨opcodeTable[9], List.getElem_mem _, admits_formatXY 0x8#4 x y 0x0#4⟩

theorem Sys2Proof.Laws.LegalWord.orVxVy (x : RegIdx) (y : RegIdx) : Statement (.orVxVy x y) :=
  ⟨opcodeTable[10], List.getElem_mem _, admits_formatXY 0x8#4 x y 0x1#4⟩

theorem Sys2Proof.Laws.LegalWord.andVxVy (x : RegIdx) (y : RegIdx) : Statement (.andVxVy x y) :=
  ⟨opcodeTable[11], List.getElem_mem _, admits_formatXY 0x8#4 x y 0x2#4⟩

theorem Sys2Proof.Laws.LegalWord.xorVxVy (x : RegIdx) (y : RegIdx) : Statement (.xorVxVy x y) :=
  ⟨opcodeTable[12], List.getElem_mem _, admits_formatXY 0x8#4 x y 0x3#4⟩

theorem Sys2Proof.Laws.LegalWord.addVxVy (x : RegIdx) (y : RegIdx) : Statement (.addVxVy x y) :=
  ⟨opcodeTable[13], List.getElem_mem _, admits_formatXY 0x8#4 x y 0x4#4⟩

theorem Sys2Proof.Laws.LegalWord.subVxVy (x : RegIdx) (y : RegIdx) : Statement (.subVxVy x y) :=
  ⟨opcodeTable[14], List.getElem_mem _, admits_formatXY 0x8#4 x y 0x5#4⟩

theorem Sys2Proof.Laws.LegalWord.shrVx (x : RegIdx) (y : RegIdx) : Statement (.shrVx x y) :=
  ⟨opcodeTable[15], List.getElem_mem _, admits_formatXY 0x8#4 x y 0x6#4⟩

theorem Sys2Proof.Laws.LegalWord.subnVxVy (x : RegIdx) (y : RegIdx) : Statement (.subnVxVy x y) :=
  ⟨opcodeTable[16], List.getElem_mem _, admits_formatXY 0x8#4 x y 0x7#4⟩

theorem Sys2Proof.Laws.LegalWord.shlVx (x : RegIdx) (y : RegIdx) : Statement (.shlVx x y) :=
  ⟨opcodeTable[17], List.getElem_mem _, admits_formatXY 0x8#4 x y 0xE#4⟩

theorem Sys2Proof.Laws.LegalWord.sneVxVy (x : RegIdx) (y : RegIdx) : Statement (.sneVxVy x y) :=
  ⟨opcodeTable[18], List.getElem_mem _, admits_formatXY 0x9#4 x y 0x0#4⟩

theorem Sys2Proof.Laws.LegalWord.ldINnn (nnn : Addr12) : Statement (.ldINnn nnn) :=
  ⟨opcodeTable[19], List.getElem_mem _, admits_formatA 0xA#4 nnn⟩

theorem Sys2Proof.Laws.LegalWord.jpV0 (nnn : Addr12) : Statement (.jpV0 nnn) :=
  ⟨opcodeTable[20], List.getElem_mem _, admits_formatA 0xB#4 nnn⟩

theorem Sys2Proof.Laws.LegalWord.rndVxNn (x : RegIdx) (nn : Byte) : Statement (.rndVxNn x nn) :=
  ⟨opcodeTable[21], List.getElem_mem _, admits_formatXI 0xC#4 x nn⟩

theorem Sys2Proof.Laws.LegalWord.drw (x : RegIdx) (y : RegIdx) (n : RowCount) : Statement (.drw x y n) :=
  ⟨opcodeTable[22], List.getElem_mem _, admits_formatD 0xD#4 x y n⟩

theorem Sys2Proof.Laws.LegalWord.skp (x : RegIdx) : Statement (.skp x) :=
  ⟨opcodeTable[23], List.getElem_mem _, admits_formatXF 0xE#4 x 0x9E#8⟩

theorem Sys2Proof.Laws.LegalWord.sknp (x : RegIdx) : Statement (.sknp x) :=
  ⟨opcodeTable[24], List.getElem_mem _, admits_formatXF 0xE#4 x 0xA1#8⟩

theorem Sys2Proof.Laws.LegalWord.ldVxDT (x : RegIdx) : Statement (.ldVxDT x) :=
  ⟨opcodeTable[25], List.getElem_mem _, admits_formatXF 0xF#4 x 0x07#8⟩

theorem Sys2Proof.Laws.LegalWord.ldVxK (x : RegIdx) : Statement (.ldVxK x) :=
  ⟨opcodeTable[26], List.getElem_mem _, admits_formatXF 0xF#4 x 0x0A#8⟩

theorem Sys2Proof.Laws.LegalWord.ldDTVx (x : RegIdx) : Statement (.ldDTVx x) :=
  ⟨opcodeTable[27], List.getElem_mem _, admits_formatXF 0xF#4 x 0x15#8⟩

theorem Sys2Proof.Laws.LegalWord.ldSTVx (x : RegIdx) : Statement (.ldSTVx x) :=
  ⟨opcodeTable[28], List.getElem_mem _, admits_formatXF 0xF#4 x 0x18#8⟩

theorem Sys2Proof.Laws.LegalWord.addIVx (x : RegIdx) : Statement (.addIVx x) :=
  ⟨opcodeTable[29], List.getElem_mem _, admits_formatXF 0xF#4 x 0x1E#8⟩

theorem Sys2Proof.Laws.LegalWord.ldFVx (x : RegIdx) : Statement (.ldFVx x) :=
  ⟨opcodeTable[30], List.getElem_mem _, admits_formatXF 0xF#4 x 0x29#8⟩

theorem Sys2Proof.Laws.LegalWord.ldBVx (x : RegIdx) : Statement (.ldBVx x) :=
  ⟨opcodeTable[31], List.getElem_mem _, admits_formatXF 0xF#4 x 0x33#8⟩

theorem Sys2Proof.Laws.LegalWord.ldMemVx (x : RegIdx) : Statement (.ldMemVx x) :=
  ⟨opcodeTable[32], List.getElem_mem _, admits_formatXF 0xF#4 x 0x55#8⟩

theorem Sys2Proof.Laws.LegalWord.ldVxMem (x : RegIdx) : Statement (.ldVxMem x) :=
  ⟨opcodeTable[33], List.getElem_mem _, admits_formatXF 0xF#4 x 0x65#8⟩
end

