-- ==== Sys2Proof/Tests/Slice0.lean ====
section
/-! SUPPORT. Tests of one step or one operation each. Expected results are the spec's vectors (95_test_vectors.md, by their
number there) or a rule's own example; words to decode are written out from 30_encoding.md R86. At the end stand the
witnesses: for each statement with hypotheses, a concrete input that meets them. -/

namespace Sys2Proof.Tests

open Sys2Proof Sys2Proof.Machine

/-- The outcome is a next state with the property. -/
def ends (r : Result) (p : State → Bool) : Bool :=
  match r with
  | .next t => p t
  | .fault _ => false
  | .refused _ => false

/-! ## Well-formedness: each check refuses an ill-formed term -/

theorem test_wf_pattern_outside_mask : Pattern.wf ⟨0xF000#16, 0x5001#16⟩ = false := by decide
theorem test_wf_pattern_ok : Pattern.wf ⟨0xF00F#16, 0x5000#16⟩ = true := by decide
theorem test_wf_overlap : Pattern.disjoint ⟨0xF000#16, 0x5000#16⟩ ⟨0xF00F#16, 0x5000#16⟩ = false := by decide
theorem test_wf_map_overlap : Pattern.wfMap [⟨0xF0FF#16, 0xF015#16⟩, ⟨0xF00F#16, 0xF005#16⟩] = false := by decide
theorem test_wf_map_bad_row : Pattern.wfMap [⟨0xFFFF#16, 0x00E0#16⟩, ⟨0xFF00#16, 0x00EE#16⟩] = false := by decide
/-- No term of `Instr` is ill formed: every value of every field is legal (R82). -/
theorem test_wf_instr (i : Instr) : i.wellFormed = true := rfl

/-! ## Decoding: one word per instruction, X = A, Y = B, N = 5, NN = 2F, NNN = 234 -/

theorem test_decode_cls : decodeWord 0x00E0#16 = .ok .cls := by decide
theorem test_decode_ret : decodeWord 0x00EE#16 = .ok .ret := by decide
theorem test_decode_jp : decodeWord 0x1234#16 = .ok (.jp 0x234#12) := by decide
theorem test_decode_call : decodeWord 0x2234#16 = .ok (.call 0x234#12) := by decide
theorem test_decode_seVxNn : decodeWord 0x3A2F#16 = .ok (.seVxNn 0xA 0x2F#8) := by decide
theorem test_decode_sneVxNn : decodeWord 0x4A2F#16 = .ok (.sneVxNn 0xA 0x2F#8) := by decide
theorem test_decode_seVxVy : decodeWord 0x5AB0#16 = .ok (.seVxVy 0xA 0xB) := by decide
theorem test_decode_ldVxNn : decodeWord 0x6A2F#16 = .ok (.ldVxNn 0xA 0x2F#8) := by decide
theorem test_decode_addVxNn : decodeWord 0x7A2F#16 = .ok (.addVxNn 0xA 0x2F#8) := by decide
theorem test_decode_ldVxVy : decodeWord 0x8AB0#16 = .ok (.ldVxVy 0xA 0xB) := by decide
theorem test_decode_orVxVy : decodeWord 0x8AB1#16 = .ok (.orVxVy 0xA 0xB) := by decide
theorem test_decode_andVxVy : decodeWord 0x8AB2#16 = .ok (.andVxVy 0xA 0xB) := by decide
theorem test_decode_xorVxVy : decodeWord 0x8AB3#16 = .ok (.xorVxVy 0xA 0xB) := by decide
theorem test_decode_addVxVy : decodeWord 0x8AB4#16 = .ok (.addVxVy 0xA 0xB) := by decide
theorem test_decode_subVxVy : decodeWord 0x8AB5#16 = .ok (.subVxVy 0xA 0xB) := by decide
theorem test_decode_shrVx : decodeWord 0x8AB6#16 = .ok (.shrVx 0xA 0xB) := by decide
theorem test_decode_subnVxVy : decodeWord 0x8AB7#16 = .ok (.subnVxVy 0xA 0xB) := by decide
theorem test_decode_shlVx : decodeWord 0x8ABE#16 = .ok (.shlVx 0xA 0xB) := by decide
theorem test_decode_sneVxVy : decodeWord 0x9AB0#16 = .ok (.sneVxVy 0xA 0xB) := by decide
theorem test_decode_ldINnn : decodeWord 0xA234#16 = .ok (.ldINnn 0x234#12) := by decide
theorem test_decode_jpV0 : decodeWord 0xB234#16 = .ok (.jpV0 0x234#12) := by decide
theorem test_decode_rndVxNn : decodeWord 0xCA2F#16 = .ok (.rndVxNn 0xA 0x2F#8) := by decide
theorem test_decode_drw : decodeWord 0xDAB5#16 = .ok (.drw 0xA 0xB 5) := by decide
theorem test_decode_skp : decodeWord 0xEA9E#16 = .ok (.skp 0xA) := by decide
theorem test_decode_sknp : decodeWord 0xEAA1#16 = .ok (.sknp 0xA) := by decide
theorem test_decode_ldVxDT : decodeWord 0xFA07#16 = .ok (.ldVxDT 0xA) := by decide
theorem test_decode_ldVxK : decodeWord 0xFA0A#16 = .ok (.ldVxK 0xA) := by decide
theorem test_decode_ldDTVx : decodeWord 0xFA15#16 = .ok (.ldDTVx 0xA) := by decide
theorem test_decode_ldSTVx : decodeWord 0xFA18#16 = .ok (.ldSTVx 0xA) := by decide
theorem test_decode_addIVx : decodeWord 0xFA1E#16 = .ok (.addIVx 0xA) := by decide
theorem test_decode_ldFVx : decodeWord 0xFA29#16 = .ok (.ldFVx 0xA) := by decide
theorem test_decode_ldBVx : decodeWord 0xFA33#16 = .ok (.ldBVx 0xA) := by decide
theorem test_decode_ldMemVx : decodeWord 0xFA55#16 = .ok (.ldMemVx 0xA) := by decide
theorem test_decode_ldVxMem : decodeWord 0xFA65#16 = .ok (.ldVxMem 0xA) := by decide

/-! ## Words next to a pattern are refused by name (section 2.10, V3.36, V3.37) -/

theorem test_refuse_0000 : decodeWord 0x0000#16 = .error (.unknownOpcode 0x0000#16) := by decide
theorem test_refuse_00E1 : decodeWord 0x00E1#16 = .error (.unknownOpcode 0x00E1#16) := by decide
theorem test_refuse_0FEE : decodeWord 0x0FEE#16 = .error (.unknownOpcode 0x0FEE#16) := by decide
theorem test_refuse_8AB8 : decodeWord 0x8AB8#16 = .error (.unknownOpcode 0x8AB8#16) := by decide
theorem test_refuse_9001 : decodeWord 0x9001#16 = .error (.unknownOpcode 0x9001#16) := by decide
theorem test_refuse_E59F : decodeWord 0xE59F#16 = .error (.unknownOpcode 0xE59F#16) := by decide
theorem test_refuse_F266 : decodeWord 0xF266#16 = .error (.unknownOpcode 0xF266#16) := by decide
/-- Bytes lie high byte first (V9.9), and a lone byte is no instruction. -/
theorem test_decode_bytes : decodeBytes [0x12#8, 0x34#8, 0x00#8] = .ok (.jp 0x234#12, [0x00#8]) := by decide
theorem test_decode_truncated : decodeBytes [0x12#8] = .error .truncated := by decide
theorem test_decode_table_word : decodeTableWord 16 0xF265 = some (.ldVxMem 2) := by decide

/-! ## One step -/

/-- V1.13: the popped value is used as it is -/
theorem test_ret_pops :
    ends (step (({ State.reset with pc := 0x400#16, sp := 1, stack := State.reset.stack.set 0 0x1001#16 }).withFetchWord 16 0x00EE))
      (fun t => t.pc == 0x1001#16 && t.sp == 0 && t.diags == []) = true := by decide

/-- V1.14 -/
theorem test_ret_underflow :
    ends (step ((State.reset).withFetchWord 16 0x00EE))
      (fun t => t.pc == 0x202#16 && t.sp == 0 && t.diags == [.stackUnderflow 0x200#16]) = true := by decide

/-- V1.2: an odd target is no fault -/
theorem test_jp :
    ends (step ((State.reset).withFetchWord 16 0x1203))
      (fun t => t.pc == 0x203#16 && t.diags == []) = true := by decide

/-- V1.10: the sixteenth entry -/
theorem test_call_pushes :
    ends (step (({ State.reset with pc := 0x220#16, sp := 15 }).withFetchWord 16 0x2300))
      (fun t => t.pc == 0x300#16 && t.sp == 16 && t.stack.get 15 == 0x222#16 && t.diags == []) = true := by decide

/-- V1.11 -/
theorem test_call_overflow :
    ends (step (({ State.reset with pc := 0x220#16, sp := 16 }).withFetchWord 16 0x2300))
      (fun t => t.pc == 0x222#16 && t.sp == 16 && t.stack == State.reset.stack && t.diags == [.stackOverflow 0x220#16]) = true := by decide

/-- V1.4 -/
theorem test_jpV0_uses_V0 :
    ends (step ((writeReg (writeReg (State.reset) 0 0x04#8) 2 0x77#8).withFetchWord 16 0xB210))
      (fun t => t.pc == 0x214#16) = true := by decide

/-- V1.5 -/
theorem test_jpV0_leaves_store :
    ends (step ((writeReg (State.reset) 0 0xFF#8).withFetchWord 16 0xBFFF))
      (fun t => t.pc == 0x10FE#16 && t.diags == []) = true := by decide

/-- V2.1 -/
theorem test_seVxNn_taken :
    ends (step ((writeReg (State.reset) 3 0x2A#8).withFetchWord 16 0x332A))
      (fun t => t.pc == 0x204#16) = true := by decide

/-- V2.2 -/
theorem test_seVxNn_not :
    ends (step ((writeReg (State.reset) 3 0x2B#8).withFetchWord 16 0x332A))
      (fun t => t.pc == 0x202#16) = true := by decide

/-- V2.5 -/
theorem test_sneVxNn_not :
    ends (step ((writeReg (State.reset) 3 0x2A#8).withFetchWord 16 0x432A))
      (fun t => t.pc == 0x202#16) = true := by decide

/-- V2.6 -/
theorem test_sneVxNn_taken :
    ends (step ((State.reset).withFetchWord 16 0x4F01))
      (fun t => t.pc == 0x204#16) = true := by decide

/-- V2.7 -/
theorem test_seVxVy_taken :
    ends (step ((writeReg (writeReg (State.reset) 10 5#8) 11 5#8).withFetchWord 16 0x5AB0))
      (fun t => t.pc == 0x204#16) = true := by decide

/-- V2.8 -/
theorem test_seVxVy_not :
    ends (step ((writeReg (writeReg (State.reset) 10 5#8) 11 6#8).withFetchWord 16 0x5AB0))
      (fun t => t.pc == 0x202#16) = true := by decide

/-- V2.10 -/
theorem test_sneVxVy_taken :
    ends (step ((writeReg (writeReg (State.reset) 10 5#8) 11 6#8).withFetchWord 16 0x9AB0))
      (fun t => t.pc == 0x204#16) = true := by decide

/-- V2.11 -/
theorem test_sneVxVy_same_register :
    ends (step ((writeReg (State.reset) 10 5#8).withFetchWord 16 0x9AA0))
      (fun t => t.pc == 0x202#16) = true := by decide

/-- V3.2 -/
theorem test_ldVxNn :
    ends (step ((State.reset).withFetchWord 16 0x6FAA))
      (fun t => readReg t 15 == 0xAA#8 && t.pc == 0x202#16) = true := by decide

/-- V3.3, S1: no flag -/
theorem test_addVxNn_wraps :
    ends (step ((writeReg (writeReg (State.reset) 2 0xFF#8) 15 5#8).withFetchWord 16 0x7201))
      (fun t => readReg t 2 == 0#8 && readReg t 15 == 5#8 && t.pc == 0x202#16) = true := by decide

/-- V3.8 -/
theorem test_ldVxVy :
    ends (step ((writeReg (State.reset) 15 1#8).withFetchWord 16 0x82F0))
      (fun t => readReg t 2 == 1#8) = true := by decide

/-- V3.9: VF is left alone -/
theorem test_orVxVy :
    ends (step ((writeReg (writeReg (writeReg (State.reset) 10 0x55#8) 11 0xAA#8) 15 7#8).withFetchWord 16 0x8AB1))
      (fun t => readReg t 10 == 0xFF#8 && readReg t 15 == 7#8) = true := by decide

/-- V3.10 -/
theorem test_andVxVy :
    ends (step ((writeReg (writeReg (writeReg (State.reset) 10 0x55#8) 11 0xAA#8) 15 7#8).withFetchWord 16 0x8AB2))
      (fun t => readReg t 10 == 0#8 && readReg t 15 == 7#8) = true := by decide

/-- V3.11 -/
theorem test_xorVxVy :
    ends (step ((writeReg (writeReg (writeReg (State.reset) 10 0x55#8) 11 0xFF#8) 15 7#8).withFetchWord 16 0x8AB3))
      (fun t => readReg t 10 == 0xAA#8 && readReg t 15 == 7#8) = true := by decide

/-- V3.15: sum 256 -/
theorem test_addVxVy_carry :
    ends (step ((writeReg (writeReg (State.reset) 10 0xFF#8) 11 1#8).withFetchWord 16 0x8AB4))
      (fun t => readReg t 10 == 0#8 && readReg t 15 == 1#8) = true := by decide

/-- A1: the result overwrites the flag -/
theorem test_addVxVy_into_VF :
    ends (step ((writeReg (writeReg (State.reset) 15 0xF0#8) 2 0x20#8).withFetchWord 16 0x8F24))
      (fun t => readReg t 15 == 0x10#8) = true := by decide

/-- V3.21: the test is strict -/
theorem test_subVxVy_equal :
    ends (step ((writeReg (writeReg (writeReg (State.reset) 10 0x80#8) 11 0x80#8) 15 1#8).withFetchWord 16 0x8AB5))
      (fun t => readReg t 10 == 0#8 && readReg t 15 == 0#8) = true := by decide

/-- A6 (D5): the operand is the old VF -/
theorem test_subVxVy_by_VF :
    ends (step ((writeReg (writeReg (State.reset) 1 0x30#8) 15 0x10#8).withFetchWord 16 0x81F5))
      (fun t => readReg t 1 == 0x20#8 && readReg t 15 == 1#8) = true := by decide

/-- V3.26 -/
theorem test_shrVx_ignores_y :
    ends (step ((writeReg (writeReg (State.reset) 10 0xFF#8) 11 0x22#8).withFetchWord 16 0x8AB6))
      (fun t => readReg t 10 == 0x7F#8 && readReg t 15 == 1#8 && readReg t 11 == 0x22#8) = true := by decide

/-- A10 (D5) -/
theorem test_shrVx_of_VF :
    ends (step ((writeReg (State.reset) 15 7#8).withFetchWord 16 0x8F06))
      (fun t => readReg t 15 == 3#8) = true := by decide

/-- V3.28 -/
theorem test_subnVxVy_wraps :
    ends (step ((writeReg (State.reset) 10 1#8).withFetchWord 16 0x8AB7))
      (fun t => readReg t 10 == 0xFF#8 && readReg t 15 == 0#8) = true := by decide

/-- A13 (D5) -/
theorem test_subnVxVy_by_VF :
    ends (step ((writeReg (writeReg (State.reset) 1 0x10#8) 15 0x30#8).withFetchWord 16 0x81F7))
      (fun t => readReg t 1 == 0x20#8 && readReg t 15 == 1#8) = true := by decide

/-- V3.32 -/
theorem test_shlVx :
    ends (step ((writeReg (State.reset) 10 0x80#8).withFetchWord 16 0x8ABE))
      (fun t => readReg t 10 == 0#8 && readReg t 15 == 1#8) = true := by decide

/-- A16 (D5) -/
theorem test_shlVx_of_VF :
    ends (step ((writeReg (State.reset) 15 0xC1#8).withFetchWord 16 0x8F0E))
      (fun t => readReg t 15 == 0x82#8) = true := by decide

/-- V4.1: the upper bits become 0 -/
theorem test_ldINnn :
    ends (step (({ State.reset with i := 0x1234#16 }).withFetchWord 16 0xA000))
      (fun t => t.i == 0#16) = true := by decide

/-- V6.3 (D6) -/
theorem test_skp_low_nibble :
    ends (step ((writeReg ({ State.reset with keys := State.reset.keys.set 10 true }) 5 0x1A#8).withFetchWord 16 0xE59E))
      (fun t => t.pc == 0x204#16) = true := by decide

/-- V6.2 -/
theorem test_skp_other_key :
    ends (step ((writeReg ({ State.reset with keys := State.reset.keys.set 11 true }) 5 0x0A#8).withFetchWord 16 0xE59E))
      (fun t => t.pc == 0x202#16) = true := by decide

/-- V6.4 -/
theorem test_sknp_pressed :
    ends (step ((writeReg ({ State.reset with keys := State.reset.keys.set 10 true }) 5 0x0A#8).withFetchWord 16 0xE5A1))
      (fun t => t.pc == 0x202#16) = true := by decide

/-- V6.6 -/
theorem test_sknp_released :
    ends (step ((State.reset).withFetchWord 16 0xEFA1))
      (fun t => t.pc == 0x204#16) = true := by decide

/-- V8.4 -/
theorem test_ldVxDT :
    ends (step (({ State.reset with dt := 0x3C#8 }).withFetchWord 16 0xF407))
      (fun t => readReg t 4 == 0x3C#8 && t.dt == 0x3C#8) = true := by decide

/-- V6.8 -/
theorem test_ldVxK_waits :
    ends (step ((writeReg (State.reset) 3 0x55#8).withFetchWord 16 0xF30A))
      (fun t => t.pc == 0x200#16 && readReg t 3 == 0x55#8) = true := by decide

/-- V6.9 -/
theorem test_ldVxK_least :
    ends (step ((writeReg ({ State.reset with keys := (State.reset.keys.set 9 true).set 7 true }) 3 0x55#8).withFetchWord 16 0xF30A))
      (fun t => t.pc == 0x202#16 && readReg t 3 == 7#8) = true := by decide

/-- V8.5: a program may raise a timer -/
theorem test_ldDTVx :
    ends (step ((writeReg ({ State.reset with dt := 3 }) 4 0xFF#8).withFetchWord 16 0xF415))
      (fun t => t.dt == 0xFF#8) = true := by decide

/-- V8.7 -/
theorem test_ldSTVx :
    ends (step ((writeReg (State.reset) 4 5#8).withFetchWord 16 0xF418))
      (fun t => t.st == 5#8 && t.dt == 0#8) = true := by decide

/-- V4.4 -/
theorem test_addIVx_no_mask :
    ends (step ((writeReg (writeReg ({ State.reset with i := 0x0FFF#16 }) 4 1#8) 15 7#8).withFetchWord 16 0xF41E))
      (fun t => t.i == 0x1000#16 && readReg t 15 == 7#8) = true := by decide

/-- V4.5 (D9) -/
theorem test_addIVx_wraps :
    ends (step ((writeReg ({ State.reset with i := 0xFFFF#16 }) 4 2#8).withFetchWord 16 0xF41E))
      (fun t => t.i == 1#16) = true := by decide

/-- V4.11: the whole byte is used -/
theorem test_ldFVx :
    ends (step ((writeReg (State.reset) 3 0xFF#8).withFetchWord 16 0xF329))
      (fun t => t.i == 0x054B#16) = true := by decide

/-- V4.15 -/
theorem test_ldBVx :
    ends (step ((writeReg ({ State.reset with i := 0x300#16 }) 2 199#8).withFetchWord 16 0xF233))
      (fun t => t.mem.read 0x300 == 1#8 && t.mem.read 0x301 == 9#8 && t.mem.read 0x302 == 9#8) = true := by decide

/-- V4.17 -/
theorem test_ldBVx_edge :
    ends (step ((writeReg ({ State.reset with i := 0x0FFE#16 }) 2 255#8).withFetchWord 16 0xF233))
      (fun t => t.mem.read 0xFFE == 2#8 && t.mem.read 0xFFF == 5#8 && t.diags == [.storeBounds .write 0x1000]) = true := by decide

/-- V4.21 -/
theorem test_ldMemVx :
    ends (step ((writeReg (writeReg (writeReg ({ State.reset with i := 0x400#16 }) 0 0x11#8) 1 0x22#8) 2 0x33#8).withFetchWord 16 0xF255))
      (fun t => t.mem.read 0x400 == 0x11#8 && t.mem.read 0x402 == 0x33#8 && t.mem.read 0x403 == 0#8 && t.i == 0x400#16) = true := by decide

/-- P5 at 0x20A -/
theorem test_ldMemVx_edge :
    ends (step ((writeReg (writeReg ({ State.reset with i := 0x0FFF#16 }) 0 0xAB#8) 1 0xCD#8).withFetchWord 16 0xF155))
      (fun t => t.mem.read 0xFFF == 0xAB#8 && t.diags == [.storeBounds .write 0x1000]) = true := by decide

/-- V4.26 -/
theorem test_ldVxMem_own_bytes :
    ends (step ((writeReg ({ State.reset with i := 0x200#16 }) 0 9#8).withFetchWord 16 0xF065))
      (fun t => readReg t 0 == 0xF0#8) = true := by decide

/-- R146's example -/
theorem test_ldVxMem_edge :
    ends (step ((writeReg (writeReg ({ State.reset with i := 0x0FFF#16, mem := [(0xFFF, 0x5A#8)] }) 1 9#8) 2 9#8).withFetchWord 16 0xF165))
      (fun t => readReg t 0 == 0x5A#8 && readReg t 1 == 0#8 && readReg t 2 == 9#8 && t.diags == [.storeBounds .read 0x1000]) = true := by decide

/-- V7.1: VF is not written -/
theorem test_cls :
    ends (step ((writeReg ({ State.reset with fb := toggleCell (toggleCell clearFb 3 5) 31 63 }) 15 1#8).withFetchWord 16 0x00E0))
      (fun t => !cell t.fb 3 5 && !cell t.fb 31 63 && readReg t 15 == 1#8) = true := by decide

/-- V7.9 -/
theorem test_drw_wraps :
    ends (step ((writeReg (writeReg ({ State.reset with i := 0x300#16, mem := [(0x300, 0x81#8)] }) 0 255#8) 1 255#8).withFetchWord 16 0xD011))
      (fun t => cell t.fb 31 63 && cell t.fb 31 6 && !cell t.fb 31 62 && readReg t 15 == 0#8) = true := by decide

/-- V7.4: one hit is enough -/
theorem test_drw_collides :
    ends (step ((writeReg ({ State.reset with i := 0x300#16, mem := [(0x300, 0xC0#8)], fb := toggleCell clearFb 0 0 }) 0 63#8).withFetchWord 16 0xD011))
      (fun t => !cell t.fb 0 0 && cell t.fb 0 63 && readReg t 15 == 1#8) = true := by decide

/-- V2.12 (D2) -/
theorem test_fault_5XY1 :
    ends (step ((writeReg (writeReg (State.reset) 10 5#8) 11 5#8).withFetchWord 16 0x5AB1))
      (fun t => t.pc == 0x202#16 && t.diags == [.unknownOpcode 0x5AB1#16 0x200#16]) = true := by decide

/-- section 2.10 (D2) -/
theorem test_fault_0NNN :
    ends (step ((State.reset).withFetchWord 16 0x01E0))
      (fun t => t.pc == 0x202#16 && t.diags == [.unknownOpcode 0x01E0#16 0x200#16]) = true := by decide

/-- V5.1, with the byte drawn. -/
theorem test_rnd_drawn : readReg (rndWith 0xB7#8 3 0x0F#8 State.reset) 3 = 0x07#8 ∧
    (rndWith 0xB7#8 3 0x0F#8 State.reset).pc = 0x202#16 := by decide

/-- V5.2: whatever byte is drawn. -/
theorem test_rnd_masked_to_zero (r : Byte) : readReg (rndWith r 3 0#8 State.reset) 3 = 0#8 := by
  simp [rndWith]

/-- V1.6: outside the store. -/
theorem test_outside_store :
    ends (step { State.reset with pc := 0x10FE#16 })
      (fun t => t.pc == 0x1100#16 &&
        t.diags == [.storeBounds .read 0x10FE, .storeBounds .read 0x10FF, .unknownOpcode 0#16 0x10FE#16]) = true := by
  decide

/-- V1.17: PC = 0xFFFF; PC + 1 is not reduced, PC + 2 is. -/
theorem test_top_of_pc :
    ends (step { State.reset with pc := 0xFFFF#16 })
      (fun t => t.pc == 0x0001#16 &&
        t.diags == [.storeBounds .read 0xFFFF, .storeBounds .read 0x10000, .unknownOpcode 0#16 0xFFFF#16]) = true := by
  decide

/-- V1.15: the low byte outside the store; the call is executed with it as 0. -/
theorem test_straddle :
    ends (step { State.reset with pc := 0x0FFF#16, mem := [(0xFFF, 0x23#8)] })
      (fun t => t.pc == 0x300#16 && t.sp == 1 && t.stack.get 0 == 0x1001#16 &&
        t.diags == [.storeBounds .read 0x1000]) = true := by
  decide

/-! ## Operations -/

/-- V8.3. -/
theorem test_tick : (tickTimers { State.reset with dt := 255, st := 2 }).dt = 254#8 ∧
    (tickTimers { State.reset with dt := 255, st := 2 }).st = 1#8 := by decide

/-- V8.2. -/
theorem test_tick_floor : tickTimers State.reset = State.reset := by decide

/-- V8.10, R210: reset moves PC back and releases the keys, and leaves the store. -/
theorem test_reset : resetEngine { State.reset with pc := 0x300#16, sp := 5, dt := 9, mem := [(0x300, 1#8)] } =
    { State.reset with mem := [(0x300, 1#8)] } := by decide

/-- V9.5: the old second byte stays. -/
theorem test_load_image : (loadImage [0x56#8] { State.reset with mem := [(0x200, 0x12#8), (0x201, 0x34#8)] }).map
    (fun t => t.mem) = some [(0x200, 0x56#8), (0x201, 0x34#8)] := by decide

/-- V8.9: byte 66 is FB[1][2]. -/
theorem test_framebuffer_byte : (readFramebuffer { State.reset with fb := toggleCell clearFb 1 2 })[66]? = some 1#8 := by
  decide +kernel

/-- S7, V6.8: the result of a waiting step; with a key down the step completes. -/
theorem test_waiting : stepResult (State.reset.withFetchWord 16 0xF30A) = .waiting := by decide
theorem test_not_waiting :
    stepResult ({ State.reset with keys := State.reset.keys.set 3 true }.withFetchWord 16 0xF30A) = .completed := by
  decide

/-- V9.1: writing the constructed value back lists nothing (log 15). -/
theorem test_canonical_write : Memory.write (Memory.write [] 0x050 0x11#8) 0x050 0xF0#8 = [] := by decide
/-- The canonical form refuses a cell out of order, a cell outside the store, and a cell that need not be listed. -/
theorem test_wf_memory_order : Memory.wf [(5, 1#8), (3, 1#8)] = false := by decide
theorem test_wf_memory_outside : Memory.wf [(4096, 1#8)] = false := by decide
theorem test_wf_memory_redundant : Memory.wf [(5, 0#8)] = false := by decide

/-! ## Witnesses: inputs that meet the hypotheses of the statements that have any -/

theorem witness_EncodeOfDecodeIsTheWord : decodeWord 0xD125#16 = .ok (.drw 1 2 5) := by decide

theorem witness_StepRunsTheDecodedInstruction_straddling :
    decodeWord (fetch { State.reset with pc := 0x0FFF#16, mem := [(0xFFF, 0x23#8)] }).1 = .ok (.call 0x300#12) := by
  decide
theorem witness_StepRunsTheDecodedInstruction_inside :
    let s := { State.reset with pc := 0x0FFE#16, mem := [(0xFFE, 0x60#8), (0xFFF, 0x11#8)] }
    s.pc.toNat + 1 < memSize ∧
      decodeWord (composeWord (s.mem.read s.pc.toNat) (s.mem.read (s.pc.toNat + 1))) = .ok (.ldVxNn 0 0x11#8) := by
  decide

theorem witness_IllegalWordIsReportedAndSkipped :
    decodeWord (fetch State.reset).1 = .error (.unknownOpcode (fetch State.reset).1) := by decide

theorem witness_StepOutsideTheStoreWalksOn : memSize ≤ (0x1000#16).toNat := by decide

theorem witness_AWaitingStepChangesNothing : stepResult (State.reset.withFetchWord 16 0xF30A) = .waiting := by decide

theorem witness_StepKeepsTheStoreCanonical :
    Safety.StoreCanonical State.reset ∧ step State.reset = .next (decodeFault 0#16 State.reset) := ⟨by decide, rfl⟩

theorem witness_RunsAndImageLoadKeepTheStoreCanonical :
    Safety.StoreCanonical State.reset ∧ runOps [.tickTimers] State.reset = .next (tickTimers State.reset) ∧
      loadImage [0x12#8] State.reset = some { State.reset with mem := [(0x200, 0x12#8)] } :=
  ⟨by decide, rfl, by decide⟩

theorem witness_EventsAreNeverWithdrawn : runOps [.reset] State.reset = .next (resetEngine State.reset) := rfl

theorem witness_AStepEmitsAtMostSixteenEvents_and_NoStepChangesTheKeys :
    step State.reset = .next (decodeFault 0#16 State.reset) := rfl

/-- The limits at their edge: a call with one free entry left, at the last word of the store. -/
theorem witness_AStepWithinTheLimitsIsQuiet :
    let s := { State.reset with pc := 0x0FFE#16, sp := 15, mem := [(0xFFE, 0x23#8)] }
    s.pc.toNat + 1 < memSize ∧ decodeWord (fetch s).1 = .ok (.call 0x300#12) ∧ s.sp.val < Config.stackDepth ∧
      ends (step s) (fun t => t.diags == []) = true := by
  decide

/-- The other limits at their edge: a return with one live entry, and transfers whose last byte is the last of the
store. -/
theorem witness_AStepWithinTheLimitsIsQuiet_return :
    let s := { State.reset with sp := 1, mem := [(0x201, 0xEE#8)] }
    decodeWord (fetch s).1 = .ok .ret ∧ 0 < s.sp.val ∧ ends (step s) (fun t => t.diags == []) = true := by
  decide
theorem witness_AStepWithinTheLimitsIsQuiet_store :
    let s := { State.reset with i := 0x0FFD#16, mem := [(0x200, 0xF2#8), (0x201, 0x55#8)] }
    decodeWord (fetch s).1 = .ok (.ldMemVx 2) ∧ s.i.toNat + 2 < memSize ∧
      ends (step s) (fun t => t.diags == []) = true := by
  decide

theorem witness_OnlyTheNamedInstructionsWrite_and_OnlyTheTabulatedRegistersChange :
    exec (.ldINnn 0x300#12) State.reset = .next (advance (setI State.reset 0x300#16)) ∧
      (advance (setI State.reset 0x300#16)).i ≠ State.reset.i := ⟨rfl, by decide⟩

theorem witness_StoreReadIsTotal_and_StoreWriteChangesAtMostOneByte : 4095 < memSize ∧ memSize ≤ 4096 := by decide

theorem witness_RetPopsOrReportsUnderflow : State.reset.sp.val = 0 ∧
    ({ State.reset with sp := 1 } : State).sp.val = (0 : Fin Config.stackDepth).val + 1 ∧
    ({ State.reset with sp := 16 } : State).sp.val = (15 : Fin Config.stackDepth).val + 1 := by decide

theorem witness_CallPushesOrReportsOverflow : ({ State.reset with sp := 16 } : State).sp.val = Config.stackDepth ∧
    State.reset.sp.val = (0 : Fin Config.stackDepth).val ∧
    ({ State.reset with sp := 15 } : State).sp.val = (15 : Fin Config.stackDepth).val := by
  decide

theorem witness_CallThenRetComesBack :
    State.reset.sp.val < Config.stackDepth ∧
      exec (.call 0x300#12) State.reset = .next (setPc (push State.reset 0x202#16 (by decide)) 0x300#16) ∧
      exec .ret (setPc (push State.reset 0x202#16 (by decide)) 0x300#16) =
        .next (popToPc (setPc (push State.reset 0x202#16 (by decide)) 0x300#16) (by decide)) := ⟨by decide, rfl, rfl⟩

theorem witness_SelfJump : Safety.SelfJump (State.reset.withFetchWord 16 0x1200) := ⟨0x200#12, by decide, by decide⟩
theorem witness_JumpToOwnAddress : (0x200#12).toNat = State.reset.pc.toNat := by decide

theorem witness_KeySkipsTestTheKeyOfTheLowNibble :
    (readReg (writeReg State.reset 5 0x1A#8) 5).toNat % 2 ^ 4 = (10 : KeyIdx).val := by decide

/-- The flag clauses ask for x other than FLAG_REG. -/
theorem witness_FlagClauses : (14 : RegIdx) ≠ Config.flagReg := by decide

theorem witness_DecimalDigits_inside : effAddr { State.reset with i := 0x0FFD#16 } 2 < memSize := by decide
theorem witness_DecimalDigits_other_byte :
    0x303 ∉ [effAddr { State.reset with i := 0x300#16 } 0, effAddr { State.reset with i := 0x300#16 } 1,
      effAddr { State.reset with i := 0x300#16 } 2] := by decide

theorem witness_RegisterTransfers_inside : (0 : RegIdx) ≤ 1 ∧ effAddr { State.reset with i := 0x0FFF#16 } 0 < memSize := by
  decide
theorem witness_RegisterTransfers_outside :
    (1 : RegIdx) ≤ 1 ∧ memSize ≤ effAddr { State.reset with i := 0x0FFF#16 } 1 ∧ (1 : RegIdx) < 2 := by decide
theorem witness_RegistersAreStoredFromI_other_byte :
    ∀ r : RegIdx, r ≤ 1 → 0x302 ≠ effAddr { State.reset with i := 0x300#16 } r.val := by decide

theorem witness_KeyWait_pressed :
    let s := { State.reset with keys := (State.reset.keys.set 9 true).set 7 true }
    s.keys.get 7 = true ∧ ∀ j : KeyIdx, j < 7 → s.keys.get j = false := by decide
theorem witness_KeyWait_none : ∀ k : KeyIdx, State.reset.keys.get k = false := by decide

/-- A lit cell under a sprite bit, and a sprite that hits nothing. -/
theorem witness_SpriteHits :
    Safety.SpriteHits { State.reset with fb := toggleCell clearFb 0 0, mem := [(0x300, 0xC0#8)] } 63 0 1 0x300 :=
  ⟨0, 0, by decide, 0, 1, by decide, by decide, by decide, by decide, by decide⟩
theorem witness_SpriteMisses (x y n base : Nat) : ¬ Safety.SpriteHits State.reset x y n base := by
  rintro ⟨r, c, h, -⟩
  simp [cell, State.reset, Vector.get_eq_getElem] at h
theorem witness_DrawingTwice_clear : ∀ r c, cell State.reset.fb r c = false := by
  intro r c
  simp [cell, State.reset, Vector.get_eq_getElem]

theorem witness_ConstructedStore : (0x04F < glyphBase) ∧ (glyphOffset 16 ≤ 0x0A0) := by decide

/-- The largest image that loads and the smallest that does not (S9). -/
theorem witness_LoadImageCopiesOrFails : (List.replicate 3584 0#8).length ≤ maxImage ∧
    maxImage < (List.replicate 3585 0#8).length ∧ 3583 < (List.replicate 3584 0#8).length := by
  simp only [List.length_replicate]; decide

theorem witness_BootedMachineFetchesTheImageFirst : ([] : List Byte).length + Config.instrBytes ≤ maxImage := by decide

theorem witness_PlacedWordIsTheOneTheStepRuns : decodeTableWord 16 0x1234 = some (.jp 0x234#12) := by decide

end Sys2Proof.Tests
end

section
/-! The result of a step and the parameters (00_scope.md R5, R8). -/

namespace Sys2Proof.Proofs.Scope

open Sys2Proof Sys2Proof.Machine

/-! ## Parameters (R5) -/

/-- Settles O56: each parameter is defined as its value in the table, and MAX_IMAGE is MEM_SIZE - PROGRAM_ORIGIN. -/
theorem parametersHaveTheValuesOfTheTable : Obligations.ParametersHaveTheValuesOfTheTable := by
  unfold Obligations.ParametersHaveTheValuesOfTheTable
  decide

/-! ## The result of a step (R8) -/

/-- The fetch reads no key and writes none (R39, R100). -/
@[simp] theorem fetch_keys (s : State) : (fetch s).2.keys = s.keys := by rw [fetch_eq]

/-- A fetched instruction decides the result, at the state the fetch leaves. -/
theorem stepResult_of_ok {s : State} {i : Instr} (h : decodeWord (fetch s).1 = .ok i) :
    stepResult s = execResult i (fetch s).2 := by
  simp only [stepResult, h]

/-- A decode fault completes (R8, R88). -/
theorem stepResult_of_error {s : State} {e : DecodeError} (h : decodeWord (fetch s).1 = .error e) :
    stepResult s = .completed := by
  simp only [stepResult, h]

/-- FX0A is the only instruction that waits, and it waits exactly while no key is pressed (R8, R154). -/
theorem execResult_eq_waiting_iff (i : Instr) (s : State) :
    execResult i s = .waiting ↔ (∃ x, i = .ldVxK x) ∧ ∀ k, s.keys.get k = false := by
  rw [← firstKey_eq_none]
  unfold execResult
  split
  next x hnone => simp [hnone]
  next hother =>
    simp only [reduceCtorEq, false_iff]
    rintro ⟨⟨x, hx⟩, hnone⟩
    exact hother x hx hnone

/-- A step waits exactly when it fetched FX0A and no key is pressed: the keys the instruction sees after the fetch are
those before it. -/
theorem stepResult_eq_waiting_iff (s : State) :
    stepResult s = .waiting ↔ (∃ x, decodeWord (fetch s).1 = .ok (.ldVxK x)) ∧ ∀ k, s.keys.get k = false := by
  cases h : decodeWord (fetch s).1 with
  | ok i => simp [stepResult_of_ok h, execResult_eq_waiting_iff]
  | error e => simp [stepResult_of_error h]

/-- There are two results only (R8). -/
theorem completed_of_ne_waiting {r : StepResult} (h : r ≠ .waiting) : r = .completed := by
  cases r with
  | completed => rfl
  | waiting => exact absurd rfl h

/-- Settles O11: the step waits exactly at FX0A with no key pressed, and completes otherwise. -/
theorem stepIsWaitingExactlyAtKeyWait : Obligations.StepIsWaitingExactlyAtKeyWait := fun s =>
  ⟨stepResult_eq_waiting_iff s, completed_of_ne_waiting⟩

end Sys2Proof.Proofs.Scope
end

section
/-! The pieces of state (10_state.md): which of them an instruction may change (00_scope.md R13), and what follows for the
keys, the special registers and the V registers. -/

namespace Sys2Proof.Proofs.Frames

open Sys2Proof Sys2Proof.Machine

/-! ## Frames compose -/

/-- A frame, part by part. -/
theorem keepsAllBut_iff (ps : List Safety.Part) (s t : State) :
    Safety.KeepsAllBut ps s t ↔
      (.regs ∉ ps → ∀ r, readReg t r = readReg s r) ∧ (.index ∉ ps → t.i = s.i) ∧
      (.stack ∉ ps → t.sp = s.sp ∧ t.stack = s.stack) ∧ (.dt ∉ ps → t.dt = s.dt) ∧ (.st ∉ ps → t.st = s.st) ∧
      (.fb ∉ ps → t.fb = s.fb) ∧ (.keys ∉ ps → t.keys = s.keys) ∧
      (.store ∉ ps → ∀ a, t.mem.read a = s.mem.read a) ∧ (.diags ∉ ps → t.diags = s.diags) ∧
      (.draws ∉ ps → t.draws = s.draws) := by
  constructor
  · intro h
    exact ⟨h .regs, h .index, h .stack, h .dt, h .st, h .fb, h .keys, h .store, h .diags, h .draws⟩
  · rintro ⟨hregs, hindex, hstack, hdt, hst, hfb, hkeys, hstore, hdiags, hdraws⟩ p
    cases p <;> assumption

/-- From a state to itself nothing changes. -/
theorem keepsAllBut_refl (ps : List Safety.Part) (s : State) : Safety.KeepsAllBut ps s s := by
  simp [keepsAllBut_iff]

/-- A part kept by two updates is kept by both in a row. -/
theorem kept_trans {s t u : State} {p : Safety.Part} (h : Safety.Kept s t p) (h' : Safety.Kept t u p) :
    Safety.Kept s u p := by
  cases p with
  | regs | store => exact fun a => (h' a).trans (h a)
  | stack => exact ⟨h'.1.trans h.1, h'.2.trans h.2⟩
  | _ => exact Eq.trans h' h

/-- Two updates in a row may change what either may. -/
theorem keepsAllBut_trans {ps qs : List Safety.Part} {s t u : State} (h : Safety.KeepsAllBut ps s t)
    (h' : Safety.KeepsAllBut qs t u) : Safety.KeepsAllBut (ps ++ qs) s u := by
  intro p hp
  rw [List.mem_append, not_or] at hp
  exact kept_trans (h p hp.1) (h' p hp.2)

/-- A frame stays one when more may change. -/
theorem keepsAllBut_mono {ps qs : List Safety.Part} {s t : State} (h : Safety.KeepsAllBut ps s t)
    (hsub : ps ⊆ qs) : Safety.KeepsAllBut qs s t :=
  fun p hp => h p (fun hmem => hp (hsub hmem))

/-- PC is no part: moving it changes none. -/
theorem keepsAllBut_setPc {ps : List Safety.Part} {s t : State} (h : Safety.KeepsAllBut ps s t) (a : Word) :
    Safety.KeepsAllBut ps s (setPc t a) :=
  fun p hp => kept_trans (h p hp) (keepsAllBut_refl [] t p List.not_mem_nil)

@[inherit_doc keepsAllBut_setPc]
theorem keepsAllBut_advance {ps : List Safety.Part} {s t : State} (h : Safety.KeepsAllBut ps s t) :
    Safety.KeepsAllBut ps s (advance t) :=
  keepsAllBut_setPc h _

/-! ## What each shared operation may change -/

theorem keepsAllBut_skipIf (c : Bool) (s : State) : Safety.KeepsAllBut [] s (skipIf c s) :=
  keepsAllBut_setPc (keepsAllBut_refl [] s) _

theorem keepsAllBut_writeReg (s : State) (x : RegIdx) (b : Byte) :
    Safety.KeepsAllBut [.regs] s (writeReg s x b) := by
  simp [keepsAllBut_iff]

theorem keepsAllBut_loadReg (s : State) (x : RegIdx) (b : Byte) : Safety.KeepsAllBut [.regs] s (loadReg s x b) :=
  keepsAllBut_advance (keepsAllBut_writeReg s x b)

theorem keepsAllBut_writeFlagThenReg (s : State) (f : Byte) (x : RegIdx) (b : Byte) :
    Safety.KeepsAllBut [.regs] s (writeFlagThenReg s f x b) := by
  simp [keepsAllBut_iff, writeFlagThenReg]

theorem keepsAllBut_setI (s : State) (a : Word) : Safety.KeepsAllBut [.index] s (setI s a) := by
  simp [keepsAllBut_iff]

theorem keepsAllBut_setDt (s : State) (b : Byte) : Safety.KeepsAllBut [.dt] s (setDt s b) := by
  simp [keepsAllBut_iff]

theorem keepsAllBut_setSt (s : State) (b : Byte) : Safety.KeepsAllBut [.st] s (setSt s b) := by
  simp [keepsAllBut_iff]

theorem keepsAllBut_setFb (s : State) (f : Framebuffer) : Safety.KeepsAllBut [.fb] s (setFb s f) := by
  simp [keepsAllBut_iff]

theorem keepsAllBut_recover (s : State) (d : Diag) : Safety.KeepsAllBut [.diags] s (recover s d) := by
  simp [keepsAllBut_iff]

theorem keepsAllBut_push (s : State) (a : Word) (h : s.sp.val < Config.stackDepth) :
    Safety.KeepsAllBut [.stack] s (push s a h) := by
  simp [keepsAllBut_iff]

theorem keepsAllBut_popToPc (s : State) (h : 0 < s.sp.val) : Safety.KeepsAllBut [.stack] s (popToPc s h) := by
  simp [keepsAllBut_iff]

theorem keepsAllBut_rndWith (r : Byte) (x : RegIdx) (nn : Byte) (s : State) :
    Safety.KeepsAllBut [.regs, .draws] s (rndWith r x nn s) := by
  simp [keepsAllBut_iff, rndWith]

/-- The store port reports (R52), so a transfer may add events beside what it transfers. -/
theorem keepsAllBut_memWrite (s : State) (a : Nat) (b : Byte) :
    Safety.KeepsAllBut [.store, .diags] s (memWrite s a b) := by
  rw [memWrite_rest]
  simp [keepsAllBut_iff, readReg]

theorem keepsAllBut_storeDigits (s : State) (b : Byte) : Safety.KeepsAllBut [.store, .diags] s (storeDigits s b) :=
  keepsAllBut_mono
    (keepsAllBut_trans (keepsAllBut_trans (keepsAllBut_memWrite s _ _) (keepsAllBut_memWrite _ _ _))
      (keepsAllBut_memWrite _ _ _))
    (by simp)

theorem keepsAllBut_storeRegs (base : Nat) (rs : List RegIdx) (s : State) :
    Safety.KeepsAllBut [.store, .diags] s (storeRegs base rs s) := by
  rw [storeRegs_rest]
  simp [keepsAllBut_iff, readReg]

theorem keepsAllBut_loadRegs (base : Nat) (rs : List RegIdx) (s : State) :
    Safety.KeepsAllBut [.regs, .diags] s (loadRegs base rs s) := by
  rw [loadRegs_rest]
  simp [keepsAllBut_iff]

theorem keepsAllBut_blit (x0 y0 : Byte) (n : RowCount) (base : Nat) (s : State) :
    Safety.KeepsAllBut [.fb, .diags] s (blit x0 y0 n base s).2 := by
  rw [blit, blitRows_rest]
  simp [keepsAllBut_iff, readReg]

/-! ## What each instruction may change -/

/-- The parts of the state an instruction's rule names for change. -/
def mayChange : Instr → List Safety.Part
  | .cls => [.fb]
  | .ret | .call _ => [.stack, .diags]
  | .jp _ | .jpV0 _ => []
  | .seVxNn _ _ | .sneVxNn _ _ | .seVxVy _ _ | .sneVxVy _ _ | .skp _ | .sknp _ => []
  | .ldVxNn _ _ | .addVxNn _ _ | .ldVxVy _ _ | .orVxVy _ _ | .andVxVy _ _ | .xorVxVy _ _ => [.regs]
  | .addVxVy _ _ | .subVxVy _ _ | .shrVx _ _ | .subnVxVy _ _ | .shlVx _ _ => [.regs]
  | .ldVxDT _ | .ldVxK _ => [.regs]
  | .ldINnn _ | .addIVx _ | .ldFVx _ => [.index]
  | .rndVxNn _ _ => [.regs, .draws]
  | .drw _ _ _ => [.regs, .fb, .diags]
  | .ldDTVx _ => [.dt]
  | .ldSTVx _ => [.st]
  | .ldBVx _ | .ldMemVx _ => [.store, .diags]
  | .ldVxMem _ => [.regs, .diags]

/-- 00EE pops or reports (R101). -/
theorem execRet_cases {s t : State} (h : execRet s = .next t) :
    (∃ hsp, t = popToPc s hsp) ∨ t = recover s (.stackUnderflow s.pc) := by
  obtain rfl := Host.Outcome.next.inj h
  by_cases hsp : 0 < s.sp.val
  · exact .inl ⟨hsp, dif_pos hsp⟩
  · exact .inr (dif_neg hsp)

/-- 2NNN pushes and jumps, or reports (R103). -/
theorem execCall_cases {nnn : Addr12} {s t : State} (h : execCall nnn s = .next t) :
    (∃ hsp, t = setPc (push s (pcAfter s 1) hsp) (zextAddr nnn)) ∨ t = recover s (.stackOverflow s.pc) := by
  obtain rfl := Host.Outcome.next.inj h
  by_cases hsp : s.sp.val < Config.stackDepth
  · exact .inl ⟨hsp, dif_pos hsp⟩
  · exact .inr (dif_neg hsp)

/-- FX0A loads the index of a key and goes on, or leaves the state as it is (R154). -/
theorem execLdVxK_cases {x : RegIdx} {s t : State} (h : execLdVxK x s = .next t) :
    (∃ b, t = advance (writeReg s x b)) ∨ t = s := by
  unfold execLdVxK at h
  split at h
  · exact .inl ⟨_, (Host.Outcome.next.inj h).symm⟩
  · exact .inr (Host.Outcome.next.inj h).symm

theorem keepsAllBut_execRet {s t : State} (h : execRet s = .next t) : Safety.KeepsAllBut [.stack, .diags] s t := by
  obtain ⟨hsp, rfl⟩ | rfl := execRet_cases h
  · exact keepsAllBut_mono (keepsAllBut_popToPc s hsp) (by simp)
  · exact keepsAllBut_mono (keepsAllBut_recover s _) (by simp)

theorem keepsAllBut_execCall {nnn : Addr12} {s t : State} (h : execCall nnn s = .next t) :
    Safety.KeepsAllBut [.stack, .diags] s t := by
  obtain ⟨hsp, rfl⟩ | rfl := execCall_cases h
  · exact keepsAllBut_mono (keepsAllBut_setPc (keepsAllBut_push s _ hsp) _) (by simp)
  · exact keepsAllBut_mono (keepsAllBut_recover s _) (by simp)

theorem keepsAllBut_execLdVxK {x : RegIdx} {s t : State} (h : execLdVxK x s = .next t) :
    Safety.KeepsAllBut [.regs] s t := by
  obtain ⟨b, rfl⟩ | rfl := execLdVxK_cases h
  · exact keepsAllBut_loadReg s x b
  · exact keepsAllBut_refl _ _

/-- DXYN draws, then writes VF (R162). -/
theorem keepsAllBut_execDrw {x y : RegIdx} {n : RowCount} {s t : State} (h : execDrw x y n s = .next t) :
    Safety.KeepsAllBut [.regs, .fb, .diags] s t := by
  obtain rfl := Host.Outcome.next.inj h
  exact keepsAllBut_advance
    (keepsAllBut_mono (keepsAllBut_trans (keepsAllBut_blit _ _ n _ s) (keepsAllBut_writeReg _ _ _)) (by simp))

/-- The frame of every instruction: executing it keeps every part its rule does not name (R13; D18, log 18). -/
theorem exec_keepsAllBut :
    ∀ {i : Instr} {s t : State}, exec i s = .next t → Safety.KeepsAllBut (mayChange i) s t
  | .cls, s, _, rfl => keepsAllBut_advance (keepsAllBut_setFb s clearFb)
  | .ret, _, _, h => keepsAllBut_execRet h
  | .call _, _, _, h => keepsAllBut_execCall h
  | .jp _, s, _, rfl | .jpV0 _, s, _, rfl => keepsAllBut_setPc (keepsAllBut_refl [] s) _
  | .seVxNn _ _, s, _, rfl | .sneVxNn _ _, s, _, rfl | .seVxVy _ _, s, _, rfl | .sneVxVy _ _, s, _, rfl
  | .skp _, s, _, rfl | .sknp _, s, _, rfl => keepsAllBut_skipIf _ s
  | .ldVxNn x _, s, _, rfl | .addVxNn x _, s, _, rfl | .ldVxVy x _, s, _, rfl | .orVxVy x _, s, _, rfl
  | .andVxVy x _, s, _, rfl | .xorVxVy x _, s, _, rfl | .ldVxDT x, s, _, rfl => keepsAllBut_loadReg s x _
  | .addVxVy x _, s, _, rfl | .subVxVy x _, s, _, rfl | .shrVx x _, s, _, rfl | .subnVxVy x _, s, _, rfl
  | .shlVx x _, s, _, rfl => keepsAllBut_writeFlagThenReg s _ x _
  | .ldVxK _, _, _, h => keepsAllBut_execLdVxK h
  | .ldINnn _, s, _, rfl | .addIVx _, s, _, rfl | .ldFVx _, s, _, rfl => keepsAllBut_advance (keepsAllBut_setI s _)
  | .rndVxNn x nn, s, _, rfl => keepsAllBut_rndWith _ x nn s
  | .drw _ _ _, _, _, h => keepsAllBut_execDrw h
  | .ldDTVx _, s, _, rfl => keepsAllBut_advance (keepsAllBut_setDt s _)
  | .ldSTVx _, s, _, rfl => keepsAllBut_advance (keepsAllBut_setSt s _)
  | .ldBVx _, s, _, rfl => keepsAllBut_advance (keepsAllBut_storeDigits s _)
  | .ldMemVx x, s, _, rfl => keepsAllBut_advance (keepsAllBut_storeRegs _ (regsUpTo x) s)
  | .ldVxMem x, s, _, rfl => keepsAllBut_advance (keepsAllBut_loadRegs _ (regsUpTo x) s)

/-! ## The keys (R38) -/

/-- A step executes the instruction fetched, or recovers from a decode fault, at the state the fetch leaves (R100). -/
theorem step_cases {s t : State} (h : step s = .next t) :
    (∃ i, decodeWord (fetch s).1 = .ok i ∧ exec i (fetch s).2 = .next t) ∨
    (∃ e, decodeWord (fetch s).1 = .error e ∧ t = decodeFault (fetch s).1 (fetch s).2) := by
  unfold step at h
  split at h
  · next i hi => exact .inl ⟨i, hi, h⟩
  · next e he => exact .inr ⟨e, he, (Host.Outcome.next.inj h).symm⟩

theorem keys_notMem_mayChange (i : Instr) : .keys ∉ mayChange i := by
  cases i <;> simp [mayChange]

/-- Settles O19: neither the fetch nor an instruction nor the recovery from a decode fault names the keys. -/
theorem noStepChangesTheKeys : Obligations.NoStepChangesTheKeys := by
  intro s t h
  obtain ⟨i, -, hexec⟩ | ⟨e, -, rfl⟩ := step_cases h
  · have hkeys : t.keys = (fetch s).2.keys := exec_keepsAllBut hexec .keys (keys_notMem_mayChange i)
    rw [hkeys, Scope.fetch_keys]
  · exact Scope.fetch_keys s

/-! ## Who writes each special piece of state (R24, R30, R33, R36, R55) -/

theorem index_mem_mayChange (i : Instr) :
    .index ∈ mayChange i ↔ (∃ nnn, i = .ldINnn nnn) ∨ (∃ x, i = .addIVx x) ∨ ∃ x, i = .ldFVx x := by
  cases i <;> simp [mayChange]

theorem stack_mem_mayChange (i : Instr) : .stack ∈ mayChange i ↔ i = .ret ∨ ∃ nnn, i = .call nnn := by
  cases i <;> simp [mayChange]

theorem dt_mem_mayChange (i : Instr) : .dt ∈ mayChange i ↔ ∃ x, i = .ldDTVx x := by
  cases i <;> simp [mayChange]

theorem st_mem_mayChange (i : Instr) : .st ∈ mayChange i ↔ ∃ x, i = .ldSTVx x := by
  cases i <;> simp [mayChange]

theorem fb_mem_mayChange (i : Instr) : .fb ∈ mayChange i ↔ i = .cls ∨ ∃ x y n, i = .drw x y n := by
  cases i <;> simp [mayChange]

theorem store_mem_mayChange (i : Instr) : .store ∈ mayChange i ↔ (∃ x, i = .ldBVx x) ∨ ∃ x, i = .ldMemVx x := by
  cases i <;> simp [mayChange]

theorem draws_mem_mayChange (i : Instr) : .draws ∈ mayChange i ↔ ∃ x nn, i = .rndVxNn x nn := by
  cases i <;> simp [mayChange]

/-- A part that changed is one the instruction's rule names. -/
theorem mem_mayChange_of_not_kept {i : Instr} {s t : State} (h : exec i s = .next t) {p : Safety.Part}
    (hp : ¬ Safety.Kept s t p) : p ∈ mayChange i :=
  by_contra fun hmem => hp (exec_keepsAllBut h p hmem)

/-- Settles O20: a changed part is named by the instruction's rule, and the table of names says by whose. -/
theorem onlyTheNamedInstructionsWrite : Obligations.OnlyTheNamedInstructionsWrite := by
  intro i s t h
  have named {p : Safety.Part} : ¬ Safety.Kept s t p → p ∈ mayChange i := mem_mayChange_of_not_kept h
  refine ⟨?index, ?stack, ?dt, ?st, ?fb, ?store, ?draws⟩
  case index => exact fun hne => (index_mem_mayChange i).1 (named hne)
  case stack =>
    intro hne
    refine (stack_mem_mayChange i).1 (named ?_)
    rintro ⟨hsp, hstack⟩
    exact hne.elim (absurd hsp) (absurd hstack)
  case dt => exact fun hne => (dt_mem_mayChange i).1 (named hne)
  case st => exact fun hne => (st_mem_mayChange i).1 (named hne)
  case fb => exact fun hne => (fb_mem_mayChange i).1 (named hne)
  case store =>
    rintro ⟨a, hne⟩
    exact (store_mem_mayChange i).1 (named fun hkept => hne (hkept a))
  case draws => exact fun hne => (draws_mem_mayChange i).1 (named hne)

/-! ## Which V registers change (R21, R22) -/

/-- An instruction that names no register keeps them all. -/
theorem regsKeptBut_of_keepsAllBut {ps : List Safety.Part} {s t : State} (h : Safety.KeepsAllBut ps s t)
    (hps : .regs ∉ ps) (xs : List RegIdx) : Safety.RegsKeptBut xs s t :=
  fun r _ => h .regs hps r

theorem regsKeptBut_loadReg (s : State) (x : RegIdx) (b : Byte) : Safety.RegsKeptBut [x] s (loadReg s x b) :=
  fun _ hr => readReg_writeReg_ne s b (List.ne_of_not_mem_cons hr)

/-- The flag-writing shape changes V[x] and VF only (R121). -/
theorem regsKeptBut_writeFlagThenReg (s : State) (f : Byte) (x : RegIdx) (b : Byte) :
    Safety.RegsKeptBut [x, Config.flagReg] s (writeFlagThenReg s f x b) := by
  intro r hr
  rw [List.mem_pair, not_or] at hr
  rw [writeFlagThenReg, readReg_advance, readReg_writeReg_ne _ _ hr.1, readReg_writeReg_ne _ _ hr.2]

theorem regsKeptBut_rndWith (r : Byte) (x : RegIdx) (nn : Byte) (s : State) :
    Safety.RegsKeptBut [x] s (rndWith r x nn s) :=
  regsKeptBut_loadReg s x (r &&& nn)

/-- DXYN writes VF only: the compositing unit keeps the registers (R162). -/
theorem regsKeptBut_execDrw {x y : RegIdx} {n : RowCount} {s t : State} (h : execDrw x y n s = .next t) :
    Safety.RegsKeptBut [Config.flagReg] s t := by
  obtain rfl := Host.Outcome.next.inj h
  intro r hr
  rw [readReg_advance, readReg_writeReg_ne _ _ (List.ne_of_not_mem_cons hr)]
  exact keepsAllBut_blit _ _ n _ s .regs (by simp) r

/-- FX65 writes the registers of its list only (R146). -/
theorem regsKeptBut_loadRegs (base : Nat) (rs : List RegIdx) (s : State) :
    Safety.RegsKeptBut rs s (loadRegs base rs s) := by
  intro r hr
  rw [loadRegs_reg, if_neg hr]

theorem regsKeptBut_execLdVxK {x : RegIdx} {s t : State} (h : execLdVxK x s = .next t) :
    Safety.RegsKeptBut [x] s t := by
  obtain ⟨b, rfl⟩ | rfl := execLdVxK_cases h
  · exact regsKeptBut_loadReg s x b
  · exact fun _ _ => rfl

/-- Settles O21: each shape of a register write changes the registers of its row, and an instruction that names no
register changes none. -/
theorem onlyTheTabulatedRegistersChange : Obligations.OnlyTheTabulatedRegistersChange := by
  intro i s t h
  match i, h with
  | .ldVxNn x _, rfl | .addVxNn x _, rfl | .ldVxVy x _, rfl | .orVxVy x _, rfl | .andVxVy x _, rfl
  | .xorVxVy x _, rfl | .ldVxDT x, rfl => exact regsKeptBut_loadReg s x _
  | .addVxVy x _, rfl | .subVxVy x _, rfl | .shrVx x _, rfl | .subnVxVy x _, rfl | .shlVx x _, rfl =>
    exact regsKeptBut_writeFlagThenReg s _ x _
  | .rndVxNn x nn, rfl => exact regsKeptBut_rndWith _ x nn s
  | .ldVxK _, h => exact regsKeptBut_execLdVxK h
  | .drw _ _ _, h => exact regsKeptBut_execDrw h
  | .ldVxMem x, rfl => exact regsKeptBut_loadRegs _ (regsUpTo x) s
  | .cls, h | .ret, h | .jp _, h | .call _, h | .jpV0 _, h | .seVxNn _ _, h | .sneVxNn _ _, h | .seVxVy _ _, h
  | .sneVxVy _ _, h | .ldINnn _, h | .skp _, h | .sknp _, h | .ldDTVx _, h | .ldSTVx _, h | .addIVx _, h
  | .ldFVx _, h | .ldBVx _, h | .ldMemVx _, h =>
    exact regsKeptBut_of_keepsAllBut (exec_keepsAllBut h) (by simp [mayChange]) []

end Sys2Proof.Proofs.Frames
end

section
/-! The step at a PC outside the store (10_state.md R29), and the operations of the driver and of the input and
presentation collaborators (R34, R37, R39). -/

namespace Sys2Proof.Proofs.StateOps

open Sys2Proof Sys2Proof.Machine

/-! ## PC outside the store (R29) -/

/-- Outside the store the port gives 0 (R52). -/
theorem portByte_outside (s : State) {a : Nat} (h : memSize ≤ a) : Safety.portByte s a = 0 :=
  if_neg (Nat.not_lt.2 h)

/-- Every access outside the store is reported, in order (R52). -/
theorem boundsEvents_outside (k : Access) {as : List Nat} (h : ∀ a ∈ as, memSize ≤ a) :
    Safety.boundsEvents k as = as.map (.storeBounds k) := by
  rw [Safety.boundsEvents, List.filter_eq_self.2 (by simpa using h)]

/-- At a PC outside the store the word fetched is 0, and both reads are reported. -/
theorem fetch_outside {s : State} (h : memSize ≤ s.pc.toNat) :
    fetch s = (0, { s with
      diags := s.diags ++ [.storeBounds .read s.pc.toNat, .storeBounds .read (s.pc.toNat + 1)] }) := by
  have h' : memSize ≤ s.pc.toNat + 1 := Nat.le_succ_of_le h
  have hev := boundsEvents_outside .read (as := [s.pc.toNat, s.pc.toNat + 1]) (by simp [h, h'])
  rw [fetch_eq, portByte_outside s h, portByte_outside s h', hev]
  rfl

/-- The word 0 is no instruction (R83). -/
theorem decodeWord_zero : decodeWord 0 = .error (.unknownOpcode 0) := by rfl

/-- Settles O9: the word fetched there is 0, a decode fault, and the recovery adds the third event. -/
theorem stepOutsideTheStoreWalksOn : Obligations.StepOutsideTheStoreWalksOn := by
  intro s h
  simp only [step, fetch_outside h, decodeWord_zero, decodeFault, recover, emit, List.append_assoc]
  rfl

/-! ## The framebuffer read (R37) -/

/-- The bytes read are the cells of the rows, one row after another. -/
theorem readFramebuffer_eq_flatMap (s : State) :
    readFramebuffer s = (s.fb.flatMap (fun row => row.map cellByte)).toList := by
  simp [readFramebuffer, Vector.flatMap, Vector.toList]

/-- Byte `r * FB_W + c` is the cell in row `r` and column `c`. -/
theorem readFramebuffer_getElem? (s : State) (r : FbRow) (c : FbCol) :
    (readFramebuffer s)[r.val * Config.fbWidth + c.val]? = some (cellByte (cell s.fb r c)) := by
  have hlt : r.val * Config.fbWidth + c.val < Config.fbHeight * Config.fbWidth := by
    simp only [Config.fbWidth, Config.fbHeight]
    omega
  obtain ⟨hrow, hcol⟩ : (r.val * Config.fbWidth + c.val) / Config.fbWidth = r.val ∧
      (r.val * Config.fbWidth + c.val) % Config.fbWidth = c.val :=
    (Nat.div_mod_unique (by decide)).2 ⟨by ring, c.isLt⟩
  rw [readFramebuffer_eq_flatMap, Vector.getElem?_toList, Vector.getElem?_eq_getElem hlt, Vector.getElem_flatMap]
  simp [hrow, hcol, cell, Vector.get_eq_getElem]

/-- Settles O49: the rows are read one after another, 64 bytes each. -/
theorem framebufferReadsRowMajor : Obligations.FramebufferReadsRowMajor := by
  intro s
  refine ⟨rfl, readFramebuffer s, rfl, ?_, readFramebuffer_getElem? s⟩
  rw [readFramebuffer_eq_flatMap, Vector.length_toList]

/-! ## Timers and keys (R34, R39) -/

/-- A tick takes one from a timer, which natural subtraction floors at 0 (R33). -/
theorem tickDown_toNat (b : Byte) : (tickDown b).toNat = b.toNat - 1 := by
  unfold tickDown
  split
  · next hpos => exact BitVec.toNat_sub_of_le (BitVec.le_def.2 hpos)
  · omega

/-- Settles O47: a tick lowers each timer by one, and writes nothing but the timers. -/
theorem tickTimersCountsDownToZero : Obligations.TickTimersCountsDownToZero := fun s =>
  ⟨tickTimers s, rfl, tickDown_toNat s.dt, tickDown_toNat s.st, rfl⟩

/-- Settles O48: `set_keys` replaces the whole key vector, and nothing else. -/
theorem setKeysWritesEverySlot : Obligations.SetKeysWritesEverySlot := fun s k =>
  ⟨setKeys k s, rfl, fun _ => rfl, rfl⟩

end Sys2Proof.Proofs.StateOps
end

section
/-! The store (20_memory.md): its content after construction, its port, the image load, the word placed for the next
fetch, and its canonical form (log 15), which every step, run and image load keeps. -/

namespace Sys2Proof.Proofs.Store

open Sys2Proof Sys2Proof.Machine

/-! ## What each instruction does to the stored cells (R55) -/

@[simp] theorem fetch_mem (s : State) : (fetch s).2.mem = s.mem := by rw [fetch_eq]

theorem loadRegs_mem (base : Nat) (rs : List RegIdx) (s : State) : (loadRegs base rs s).mem = s.mem := by
  rw [loadRegs_rest]

theorem blit_mem (x0 y0 : Byte) (n : RowCount) (base : Nat) (s : State) :
    (blit x0 y0 n base s).2.mem = s.mem := by
  rw [blit, blitRows_rest]

theorem execRet_mem {s t : State} (h : execRet s = .next t) : t.mem = s.mem := by
  obtain ⟨hsp, rfl⟩ | rfl := Frames.execRet_cases h <;> rfl

theorem execCall_mem {nnn : Addr12} {s t : State} (h : execCall nnn s = .next t) : t.mem = s.mem := by
  obtain ⟨hsp, rfl⟩ | rfl := Frames.execCall_cases h <;> rfl

theorem execLdVxK_mem {x : RegIdx} {s t : State} (h : execLdVxK x s = .next t) : t.mem = s.mem := by
  obtain ⟨b, rfl⟩ | rfl := Frames.execLdVxK_cases h <;> rfl

/-- An instruction whose rule does not name the store leaves the very list of cells as it was. The frame of
`exec_keepsAllBut` says so of every byte read only, which two lists can share when one of them is not canonical. -/
theorem exec_mem_of_store_notMem :
    ∀ {i : Instr} {s t : State}, exec i s = .next t → .store ∉ Frames.mayChange i → t.mem = s.mem
  | .ldBVx _, _, _, _, hstore | .ldMemVx _, _, _, _, hstore => absurd (by simp [Frames.mayChange]) hstore
  | .ret, _, _, h, _ => execRet_mem h
  | .call _, _, _, h, _ => execCall_mem h
  | .ldVxK _, _, _, h, _ => execLdVxK_mem h
  | .drw _ _ n, s, _, rfl, _ => blit_mem _ _ n _ s
  | .ldVxMem x, s, _, rfl, _ => loadRegs_mem _ (regsUpTo x) s
  | .cls, _, _, rfl, _ | .jp _, _, _, rfl, _ | .jpV0 _, _, _, rfl, _ | .seVxNn _ _, _, _, rfl, _
  | .sneVxNn _ _, _, _, rfl, _ | .seVxVy _ _, _, _, rfl, _ | .sneVxVy _ _, _, _, rfl, _ | .skp _, _, _, rfl, _
  | .sknp _, _, _, rfl, _ | .ldVxNn _ _, _, _, rfl, _ | .addVxNn _ _, _, _, rfl, _ | .ldVxVy _ _, _, _, rfl, _
  | .orVxVy _ _, _, _, rfl, _ | .andVxVy _ _, _, _, rfl, _ | .xorVxVy _ _, _, _, rfl, _
  | .addVxVy _ _, _, _, rfl, _ | .subVxVy _ _, _, _, rfl, _ | .shrVx _ _, _, _, rfl, _
  | .subnVxVy _ _, _, _, rfl, _ | .shlVx _ _, _, _, rfl, _ | .ldINnn _, _, _, rfl, _ | .rndVxNn _ _, _, _, rfl, _
  | .ldVxDT _, _, _, rfl, _ | .ldDTVx _, _, _, rfl, _ | .ldSTVx _, _, _, rfl, _ | .addIVx _, _, _, rfl, _
  | .ldFVx _, _, _, rfl, _ => rfl

/-! ## The canonical form (R52, R53, R60; log 15) -/

/-- The canonical form speaks of the cells only. -/
theorem storeCanonical_of_mem_eq {s t : State} (hmem : t.mem = s.mem) (hs : Safety.StoreCanonical s) :
    Safety.StoreCanonical t := by
  rwa [Safety.StoreCanonical, hmem]

/-- FX33 writes through the port, three times (R144). -/
theorem storeDigits_canonical {s : State} (hs : Safety.StoreCanonical s) (b : Byte) :
    Safety.StoreCanonical (storeDigits s b) :=
  memWrite_wf (memWrite_wf (memWrite_wf hs _ _) _ _) _ _

/-- FX33 and FX55 write through the port, which keeps the form; every other instruction keeps the cells. -/
theorem exec_canonical {i : Instr} {s t : State} (h : exec i s = .next t) (hs : Safety.StoreCanonical s) :
    Safety.StoreCanonical t := by
  by_cases hstore : .store ∈ Frames.mayChange i
  · obtain ⟨x, rfl⟩ | ⟨x, rfl⟩ := (Frames.store_mem_mayChange i).1 hstore
    · obtain rfl := Host.Outcome.next.inj h
      exact storeDigits_canonical hs (readReg s x)
    · obtain rfl := Host.Outcome.next.inj h
      exact storeRegs_wf _ (regsUpTo x) hs
  · exact storeCanonical_of_mem_eq (exec_mem_of_store_notMem h hstore) hs

/-- Settles O13: neither the fetch nor the recovery from a decode fault touches the cells, and every instruction keeps
the form. -/
theorem stepKeepsTheStoreCanonical : Obligations.StepKeepsTheStoreCanonical := by
  intro s t hs h
  have hfetch : Safety.StoreCanonical (fetch s).2 := storeCanonical_of_mem_eq (fetch_mem s) hs
  obtain ⟨i, -, hexec⟩ | ⟨e, -, rfl⟩ := Frames.step_cases h
  · exact exec_canonical hexec hfetch
  · exact hfetch

/-- Settles O14: the constructed store lists no cell. -/
theorem resetStoreIsCanonical : Obligations.ResetStoreIsCanonical := Memory.wf_reset

/-- No operation but `step()` touches the cells, `reset()` included (R211). -/
theorem perform_canonical {op : Operation} {s t : State} (h : perform op s = .next t)
    (hs : Safety.StoreCanonical s) : Safety.StoreCanonical t :=
  match op, h with
  | .step, h => stepKeepsTheStoreCanonical s t hs h
  | .tickTimers, rfl | .setKeys _, rfl | .readFramebuffer, rfl | .reset, rfl => hs

/-- A run is a first operation and the run from where it ends. -/
theorem runOps_cons {op : Operation} {ops : List Operation} {s t : State} (h : runOps (op :: ops) s = .next t) :
    ∃ u, perform op s = .next u ∧ runOps ops u = .next t := by
  unfold runOps at h
  split at h
  · next u hu => exact ⟨u, hu, h⟩
  · cases h
  · cases h

/-- What every operation keeps, every run keeps (R7, R220). -/
theorem runOps_keeps {P : State → Prop} (hP : ∀ {op s t}, perform op s = .next t → P s → P t)
    {ops : List Operation} : ∀ {s t : State}, runOps ops s = .next t → P s → P t := by
  induction ops with
  | nil =>
    rintro s t h hs
    obtain rfl := Host.Outcome.next.inj h
    exact hs
  | cons op ops ih =>
    intro s t h hs
    obtain ⟨u, hop, hrest⟩ := runOps_cons h
    exact ih hrest (hP hop hs)

/-! ## The image load (R59) -/

theorem loadImage_eq_none {bytes : List Byte} (h : maxImage < bytes.length) (s : State) :
    loadImage bytes s = none :=
  if_pos h

theorem loadImage_eq_some {bytes : List Byte} (h : bytes.length ≤ maxImage) (s : State) :
    loadImage bytes s = some { s with mem := placeBytes s.mem programOrigin.toNat bytes } :=
  if_neg (Nat.not_lt.2 h)

/-- An image that loads ends inside the store. -/
theorem image_fits {bytes : List Byte} (h : bytes.length ≤ maxImage) :
    programOrigin.toNat + bytes.length ≤ memSize := by
  have hsize : programOrigin.toNat + maxImage = memSize := by decide
  omega

theorem loadImage_canonical {bytes : List Byte} {s t : State} (hs : Safety.StoreCanonical s)
    (h : loadImage bytes s = some t) : Safety.StoreCanonical t := by
  obtain hlong | hfits := Nat.lt_or_ge maxImage bytes.length
  · simp [loadImage_eq_none hlong] at h
  · rw [loadImage_eq_some hfits] at h
    obtain rfl := Option.some.inj h
    exact placeBytes_wf bytes hs (image_fits hfits)

/-- Settles O15: each operation keeps the form, and an image that loads is placed inside the store. -/
theorem runsAndImageLoadKeepTheStoreCanonical : Obligations.RunsAndImageLoadKeepTheStoreCanonical :=
  ⟨fun _ _ _ hs h => runOps_keeps perform_canonical h hs, fun _ _ _ => loadImage_canonical⟩

/-- Byte `k` of the list lies `k` bytes on. -/
theorem placeBytes_read_inside (m : Memory) (a : Nat) {bytes : List Byte} {k : Nat} (hk : k < bytes.length) :
    (placeBytes m a bytes).read (a + k) = bytes[k] := by
  rw [placeBytes_read, if_pos (by omega), Nat.add_sub_cancel_left, List.getD_eq_getElem _ _ hk]

theorem placeBytes_read_outside (m : Memory) {a a' : Nat} {bytes : List Byte}
    (h : a' < a ∨ a + bytes.length ≤ a') : (placeBytes m a bytes).read a' = m.read a' := by
  rw [placeBytes_read, if_neg (by omega)]

/-- Settles O53: a load that succeeds places the bytes from PROGRAM_ORIGIN on, and writes nothing but the store. -/
theorem loadImageCopiesOrFails : Obligations.LoadImageCopiesOrFails := by
  intro bytes s
  refine ⟨fun hlong => loadImage_eq_none hlong s, fun hfits => ⟨_, loadImage_eq_some hfits s, rfl, ?copied, ?kept⟩⟩
  case copied =>
    intro k hk
    rw [placeBytes_read_inside _ _ hk, List.getElem?_eq_getElem hk]
  case kept => exact fun a ha => placeBytes_read_outside _ ha

/-! ## The port (R52, R53) -/

theorem memWrite_inside (s : State) {a : Nat} (h : a < memSize) (b : Byte) :
    memWrite s a b = { s with mem := s.mem.write a b } :=
  if_pos h

theorem memWrite_outside (s : State) {a : Nat} (h : memSize ≤ a) (b : Byte) :
    memWrite s a b = emit s (.storeBounds .write a) :=
  if_neg (Nat.not_lt.2 h)

/-- Replacing the cells changes the store only. -/
theorem keepsAllBut_withMem (s : State) (m : Memory) : Safety.KeepsAllBut [.store] s { s with mem := m } := by
  simp [Frames.keepsAllBut_iff, readReg]

/-- Settles O23: inside the store only the cells are replaced, and outside it only an event is added. -/
theorem storeWriteChangesAtMostOneByte : Obligations.StoreWriteChangesAtMostOneByte := by
  intro s a b
  refine ⟨fun hin => ?inside, fun hout => memWrite_outside s hout b⟩
  case inside =>
    rw [memWrite_inside s hin]
    exact ⟨Memory.read_write s.mem a b, keepsAllBut_withMem s _, rfl⟩

/-- Settles O22: the port asks first whether the store has the address. -/
theorem storeReadIsTotal : Obligations.StoreReadIsTotal := fun _ _ =>
  ⟨fun hin => if_pos hin, fun hout => if_neg (Nat.not_lt.2 hout)⟩

/-! ## The word placed for the next fetch (R59, R100; log 11) -/

/-- A word is placed where the store has both of its bytes: at PC if it does there, else at PROGRAM_ORIGIN. -/
theorem fetchPlace_inside (s : State) : (fetchPlace s).toNat + 1 < memSize := by
  unfold fetchPlace
  split
  · next hpc => exact hpc
  · decide

/-- The next fetch reads the two bytes placed, and leaves the state alone. -/
theorem fetch_placeAtFetch (s : State) (hi lo : Byte) :
    fetch (placeAtFetch s [hi, lo]) = (composeWord hi lo, placeAtFetch s [hi, lo]) := by
  have hhi : (placeAtFetch s [hi, lo]).mem.read (fetchPlace s).toNat = hi :=
    placeBytes_read_inside s.mem (fetchPlace s).toNat (k := 0) (bytes := [hi, lo]) (by simp)
  have hlo : (placeAtFetch s [hi, lo]).mem.read ((fetchPlace s).toNat + 1) = lo :=
    placeBytes_read_inside s.mem (fetchPlace s).toNat (k := 1) (bytes := [hi, lo]) (by simp)
  have hpc : (placeAtFetch s [hi, lo]).pc = fetchPlace s := rfl
  rw [fetch_inside (hpc ▸ fetchPlace_inside s), hpc, hhi, hlo]

/-- Two bytes that decode are the bytes of a word that does (R80). -/
theorem decodeWord_of_decodeBytes_pair {hi lo : Byte} {i : Instr} {rest : List Byte}
    (h : decodeBytes [hi, lo] = .ok (i, rest)) : decodeWord (composeWord hi lo) = .ok i := by
  unfold decodeBytes at h
  cases hw : decodeWord (composeWord hi lo) with
  | ok j =>
    obtain ⟨rfl, -⟩ : j = i ∧ [] = rest := by simpa [hw, Except.map] using h
    rfl
  | error e => simp [hw, Except.map] at h

/-- What the table word decodes to, its two bytes do. -/
theorem decodeBytes_of_decodeTableWord {nbits w : Nat} {i : Instr} (h : decodeTableWord nbits w = some i) :
    ∃ rest, decodeBytes (tableBytes nbits w) = .ok (i, rest) := by
  unfold decodeTableWord at h
  split at h
  · next j rest hj => exact ⟨rest, Option.some.inj h ▸ hj⟩
  · cases h

/-- The step at a state that fetches an instruction without an event executes it there (R100). -/
theorem step_of_fetch {s : State} {w : Word} {i : Instr} (hf : fetch s = (w, s)) (hw : decodeWord w = .ok i) :
    step s = exec i s := by
  simp only [step, hf, hw]

/-- Settles O55: the step fetches the two bytes placed, whose word decodes to the instruction. -/
theorem placedWordIsTheOneTheStepRuns : Obligations.PlacedWordIsTheOneTheStepRuns := by
  intro s nbits w i h
  obtain ⟨rest, hbytes⟩ := decodeBytes_of_decodeTableWord h
  exact step_of_fetch (fetch_placeAtFetch s _ _) (decodeWord_of_decodeBytes_pair hbytes)

/-! ## The constructed store (R57, R60) -/

/-- The store as constructed lists no cell, so every byte of it is the initial one. -/
theorem reset_read (a : Nat) : State.reset.mem.read a = initialByte a := rfl

/-- The glyph table ends where a seventeenth glyph would begin. -/
theorem initialByte_outside_glyphs {a : Nat} (h : a < glyphBase ∨ glyphOffset 16 ≤ a) : initialByte a = 0 := by
  unfold initialByte
  split
  · rfl
  · next hbase =>
    have hend : glyphOffset 16 = glyphBase + glyphTable.length := by decide
    exact List.getD_eq_default _ _ (by omega)

/-- A byte of the constructed store is 0 or a byte of the glyph table. -/
theorem initialByte_eq_zero_or_mem (a : Nat) : initialByte a = 0 ∨ initialByte a ∈ glyphTable := by
  unfold initialByte
  split
  · exact .inl rfl
  · obtain hin | hout := Nat.lt_or_ge (a - glyphBase) glyphTable.length
    · exact .inr (List.getD_eq_getElem _ _ hin ▸ List.getElem_mem hin)
    · exact .inl (List.getD_eq_default _ _ hout)

/-- A glyph is four pixels wide: the low nibble of each of its bytes is 0 (R57). -/
theorem glyphTable_low_nibble : ∀ b ∈ glyphTable, b.extractLsb' 0 4 = 0#4 := by decide

theorem initialByte_low_nibble (a : Nat) : (initialByte a).extractLsb' 0 4 = 0#4 := by
  obtain hzero | hmem := initialByte_eq_zero_or_mem a
  · rw [hzero]; rfl
  · exact glyphTable_low_nibble _ hmem

/-- Settles O52: bytes outside the table are 0, those of the table have low nibble 0, and the sixteen glyphs are read
off the table. -/
theorem constructedStoreHoldsTheGlyphTable : Obligations.ConstructedStoreHoldsTheGlyphTable := by
  refine ⟨fun a h => (reset_read a).trans (initialByte_outside_glyphs h), fun a => ?lowNibble, ?glyphs⟩
  case lowNibble => rw [reset_read, initialByte_low_nibble]
  case glyphs => decide

end Sys2Proof.Proofs.Store
end

section
/-! The decoder and the encoder (30_encoding.md R80 to R88): each is the other's inverse, a word selects one row of the
opcode map or none, and what the step does at a word that selects none. -/

namespace Sys2Proof.Proofs.Encoding

open Sys2Proof Sys2Proof.Machine

/-! ## Encoding, then decoding (R81, R86) -/

/-- A row of the opcode map, by its place in it. -/
theorem row_mem (k : Nat) (h : k < opcodeTable.length := by decide) : opcodeTable[k] ∈ opcodeTable :=
  List.getElem_mem h

section Formats

variable (op : BitVec 4)

/-- A row of format A decodes the words of the format to what it builds; so for the other formats below. -/
theorem decodeWord_formatA {build : Addr12 → Instr} (nnn : Addr12)
    (hrow : ⟨⟨0xF000#16, op ++ 0#12⟩, fun w => build (fieldNnn w)⟩ ∈ opcodeTable) :
    decodeWord (formatA op nnn) = .ok (build nnn) := by
  simp [decodeWord_of_row hrow (admits_formatA op nnn)]

@[inherit_doc decodeWord_formatA]
theorem decodeWord_formatXI {build : RegIdx → Byte → Instr} (x : RegIdx) (nn : Byte)
    (hrow : ⟨⟨0xF000#16, op ++ 0#12⟩, fun w => build (fieldX w) (fieldNn w)⟩ ∈ opcodeTable) :
    decodeWord (formatXI op x nn) = .ok (build x nn) := by
  simp [decodeWord_of_row hrow (admits_formatXI op x nn)]

@[inherit_doc decodeWord_formatA]
theorem decodeWord_formatXY (f : BitVec 4) {build : RegIdx → RegIdx → Instr} (x y : RegIdx)
    (hrow : ⟨⟨0xF00F#16, op ++ 0#8 ++ f⟩, fun w => build (fieldX w) (fieldY w)⟩ ∈ opcodeTable) :
    decodeWord (formatXY op x y f) = .ok (build x y) := by
  simp [decodeWord_of_row hrow (admits_formatXY op x y f)]

@[inherit_doc decodeWord_formatA]
theorem decodeWord_formatD {build : RegIdx → RegIdx → RowCount → Instr} (x y : RegIdx) (n : RowCount)
    (hrow : ⟨⟨0xF000#16, op ++ 0#12⟩, fun w => build (fieldX w) (fieldY w) (fieldN w)⟩ ∈ opcodeTable) :
    decodeWord (formatD op x y n) = .ok (build x y n) := by
  simp [decodeWord_of_row hrow (admits_formatD op x y n)]

@[inherit_doc decodeWord_formatA]
theorem decodeWord_formatXF (f : BitVec 8) {build : RegIdx → Instr} (x : RegIdx)
    (hrow : ⟨⟨0xF0FF#16, op ++ 0#4 ++ f⟩, fun w => build (fieldX w)⟩ ∈ opcodeTable) :
    decodeWord (formatXF op x f) = .ok (build x) := by
  simp [decodeWord_of_row hrow (admits_formatXF op x f)]

end Formats

/-- The word of an instruction decodes to it: each instruction has its row, whose literal digits its format carries. -/
theorem decodeWord_encode : ∀ i : Instr, decodeWord (encode i) = .ok i
  | .cls => decodeWord_of_row (row_mem 0) (by decide)
  | .ret => decodeWord_of_row (row_mem 1) (by decide)
  | .jp nnn => decodeWord_formatA 0x1#4 nnn (row_mem 2)
  | .call nnn => decodeWord_formatA 0x2#4 nnn (row_mem 3)
  | .seVxNn x nn => decodeWord_formatXI 0x3#4 x nn (row_mem 4)
  | .sneVxNn x nn => decodeWord_formatXI 0x4#4 x nn (row_mem 5)
  | .seVxVy x y => decodeWord_formatXY 0x5#4 0x0#4 x y (row_mem 6)
  | .ldVxNn x nn => decodeWord_formatXI 0x6#4 x nn (row_mem 7)
  | .addVxNn x nn => decodeWord_formatXI 0x7#4 x nn (row_mem 8)
  | .ldVxVy x y => decodeWord_formatXY 0x8#4 0x0#4 x y (row_mem 9)
  | .orVxVy x y => decodeWord_formatXY 0x8#4 0x1#4 x y (row_mem 10)
  | .andVxVy x y => decodeWord_formatXY 0x8#4 0x2#4 x y (row_mem 11)
  | .xorVxVy x y => decodeWord_formatXY 0x8#4 0x3#4 x y (row_mem 12)
  | .addVxVy x y => decodeWord_formatXY 0x8#4 0x4#4 x y (row_mem 13)
  | .subVxVy x y => decodeWord_formatXY 0x8#4 0x5#4 x y (row_mem 14)
  | .shrVx x y => decodeWord_formatXY 0x8#4 0x6#4 x y (row_mem 15)
  | .subnVxVy x y => decodeWord_formatXY 0x8#4 0x7#4 x y (row_mem 16)
  | .shlVx x y => decodeWord_formatXY 0x8#4 0xE#4 x y (row_mem 17)
  | .sneVxVy x y => decodeWord_formatXY 0x9#4 0x0#4 x y (row_mem 18)
  | .ldINnn nnn => decodeWord_formatA 0xA#4 nnn (row_mem 19)
  | .jpV0 nnn => decodeWord_formatA 0xB#4 nnn (row_mem 20)
  | .rndVxNn x nn => decodeWord_formatXI 0xC#4 x nn (row_mem 21)
  | .drw x y n => decodeWord_formatD 0xD#4 x y n (row_mem 22)
  | .skp x => decodeWord_formatXF 0xE#4 0x9E#8 x (row_mem 23)
  | .sknp x => decodeWord_formatXF 0xE#4 0xA1#8 x (row_mem 24)
  | .ldVxDT x => decodeWord_formatXF 0xF#4 0x07#8 x (row_mem 25)
  | .ldVxK x => decodeWord_formatXF 0xF#4 0x0A#8 x (row_mem 26)
  | .ldDTVx x => decodeWord_formatXF 0xF#4 0x15#8 x (row_mem 27)
  | .ldSTVx x => decodeWord_formatXF 0xF#4 0x18#8 x (row_mem 28)
  | .addIVx x => decodeWord_formatXF 0xF#4 0x1E#8 x (row_mem 29)
  | .ldFVx x => decodeWord_formatXF 0xF#4 0x29#8 x (row_mem 30)
  | .ldBVx x => decodeWord_formatXF 0xF#4 0x33#8 x (row_mem 31)
  | .ldMemVx x => decodeWord_formatXF 0xF#4 0x55#8 x (row_mem 32)
  | .ldVxMem x => decodeWord_formatXF 0xF#4 0x65#8 x (row_mem 33)

/-- The two bytes of a word, high byte first, make up the word (R56). -/
theorem composeWord_bytes (w : Word) : composeWord (w.extractLsb' 8 8) (w.extractLsb' 0 8) = w :=
  (BitVec.extractLsb'_append_extractLsb'_eq_extractLsb' rfl).trans BitVec.extractLsb'_eq_self

/-- Settles O1: the word by `decodeWord_encode`, and the two bytes stored make up that word. -/
theorem decodeOfEncodeIsTheInstruction : Obligations.DecodeOfEncodeIsTheInstruction := by
  refine fun i rest => ⟨decodeWord_encode i, ?_⟩
  change (decodeWord (composeWord _ _)).map _ = _
  rw [composeWord_bytes, decodeWord_encode]
  rfl

/-! ## Words as numbers (R82, R86) -/

@[simp] theorem fieldX_val (w : Word) : (fieldX w).val = w.toNat / 256 % 16 := by
  simp [fieldX, Nat.shiftRight_eq_div_pow]

@[simp] theorem fieldY_val (w : Word) : (fieldY w).val = w.toNat / 16 % 16 := by
  simp [fieldY, Nat.shiftRight_eq_div_pow]

@[simp] theorem fieldN_val (w : Word) : (fieldN w).val = w.toNat % 16 := by simp [fieldN]

@[simp] theorem fieldNn_toNat (w : Word) : (fieldNn w).toNat = w.toNat % 256 := by simp [fieldNn]

@[simp] theorem fieldNnn_toNat (w : Word) : (fieldNnn w).toNat = w.toNat % 4096 := by simp [fieldNnn]

/-- A pattern whose mask is the top nibble and the lowest `d` bits compares those two parts. -/
theorem admits_iff {d : Nat} (hd : d ≤ 12) {m : Word} (htop : m.toNat / 2 ^ 12 = 2 ^ 4 - 1)
    (hlow : m.toNat % 2 ^ 12 = 2 ^ d - 1) (v w : Word) :
    Pattern.admits ⟨m, v⟩ w = true ↔
      w.toNat / 2 ^ 12 = v.toNat / 2 ^ 12 ∧ w.toNat % 2 ^ d = v.toNat % 2 ^ 12 := by
  have hdiv : (w &&& m).toNat / 2 ^ 12 = w.toNat / 2 ^ 12 := by
    rw [BitVec.toNat_and, Nat.and_div_two_pow, htop, Nat.and_two_pow_sub_one_eq_mod, Nat.mod_eq_of_lt (by omega)]
  have hmod : (w &&& m).toNat % 2 ^ 12 = w.toNat % 2 ^ d := by
    rw [BitVec.toNat_and, Nat.and_mod_two_pow, hlow, Nat.and_two_pow_sub_one_eq_mod,
      Nat.mod_mod_of_dvd _ (Nat.pow_dvd_pow 2 hd)]
  rw [← hdiv, ← hmod, Pattern.admits, beq_iff_eq, ← BitVec.toNat_inj]
  constructor
  · intro h
    rw [h]
    exact ⟨rfl, rfl⟩
  · rintro ⟨h, h'⟩
    rw [← Nat.div_add_mod (w &&& m).toNat, h, h', Nat.div_add_mod]

/-! The four masks of R86. -/

@[simp] theorem admits_F000 (v w : Word) :
    Pattern.admits ⟨0xF000#16, v⟩ w = true ↔ w.toNat / 4096 = v.toNat / 4096 ∧ v.toNat % 4096 = 0 := by
  have h := admits_iff (d := 0) (m := 0xF000#16) (by decide) (by decide) (by decide) v w
  simpa [Nat.mod_one, eq_comm (a := 0)] using h

@[simp] theorem admits_F00F (v w : Word) :
    Pattern.admits ⟨0xF00F#16, v⟩ w = true ↔ w.toNat / 4096 = v.toNat / 4096 ∧ w.toNat % 16 = v.toNat % 4096 :=
  admits_iff (d := 4) (by decide) (by decide) (by decide) v w

@[simp] theorem admits_F0FF (v w : Word) :
    Pattern.admits ⟨0xF0FF#16, v⟩ w = true ↔ w.toNat / 4096 = v.toNat / 4096 ∧ w.toNat % 256 = v.toNat % 4096 :=
  admits_iff (d := 8) (by decide) (by decide) (by decide) v w

@[simp] theorem admits_FFFF (v w : Word) :
    Pattern.admits ⟨0xFFFF#16, v⟩ w = true ↔ w.toNat / 4096 = v.toNat / 4096 ∧ w.toNat % 4096 = v.toNat % 4096 :=
  admits_iff (d := 12) (by decide) (by decide) (by decide) v w

/-! ## Decoding, then encoding (R86) -/

/-- The row's instruction for a word it admits is encoded as that word. -/
def SpellsItsWords (r : OpcodeRow) : Prop := ∀ w, r.pattern.admits w = true → encode (r.build w) = w

theorem spells_fixed {v : Word} {i : Instr} (henc : encode i = v) : SpellsItsWords ⟨⟨0xFFFF#16, v⟩, fun _ => i⟩ := by
  intro w hw
  rw [admits_FFFF] at hw
  exact henc.trans (BitVec.eq_of_toNat_eq (by omega))

section Formats

variable (op : BitVec 4)

/-- A row that builds an instruction of format A from the word's fields spells its words: the encoding and the word
match one pattern and have the same fields. So for the other formats below. -/
theorem spells_formatA {build : Addr12 → Instr} (henc : ∀ nnn, encode (build nnn) = formatA op nnn) :
    SpellsItsWords ⟨⟨0xF000#16, op ++ 0#12⟩, fun w => build (fieldNnn w)⟩ := by
  intro w hw
  have he := admits_formatA op (fieldNnn w)
  have hnnn := congrArg BitVec.toNat (fieldNnn_formatA op (fieldNnn w))
  simp only [admits_F000, fieldNnn_toNat] at hw he hnnn
  exact (henc _).trans (BitVec.eq_of_toNat_eq (by omega))

@[inherit_doc spells_formatA]
theorem spells_formatXI {build : RegIdx → Byte → Instr} (henc : ∀ x nn, encode (build x nn) = formatXI op x nn) :
    SpellsItsWords ⟨⟨0xF000#16, op ++ 0#12⟩, fun w => build (fieldX w) (fieldNn w)⟩ := by
  intro w hw
  have he := admits_formatXI op (fieldX w) (fieldNn w)
  have hx := congrArg Fin.val (fieldX_formatXI op (fieldX w) (fieldNn w))
  have hnn := congrArg BitVec.toNat (fieldNn_formatXI op (fieldX w) (fieldNn w))
  simp only [admits_F000, fieldX_val, fieldNn_toNat] at hw he hx hnn
  exact (henc _ _).trans (BitVec.eq_of_toNat_eq (by omega))

@[inherit_doc spells_formatA]
theorem spells_formatXY (f : BitVec 4) {build : RegIdx → RegIdx → Instr}
    (henc : ∀ x y, encode (build x y) = formatXY op x y f) :
    SpellsItsWords ⟨⟨0xF00F#16, op ++ 0#8 ++ f⟩, fun w => build (fieldX w) (fieldY w)⟩ := by
  intro w hw
  have he := admits_formatXY op (fieldX w) (fieldY w) f
  have hx := congrArg Fin.val (fieldX_formatXY op (fieldX w) (fieldY w) f)
  have hy := congrArg Fin.val (fieldY_formatXY op (fieldX w) (fieldY w) f)
  simp only [admits_F00F, fieldX_val, fieldY_val] at hw he hx hy
  exact (henc _ _).trans (BitVec.eq_of_toNat_eq (by omega))

@[inherit_doc spells_formatA]
theorem spells_formatD {build : RegIdx → RegIdx → RowCount → Instr}
    (henc : ∀ x y n, encode (build x y n) = formatD op x y n) :
    SpellsItsWords ⟨⟨0xF000#16, op ++ 0#12⟩, fun w => build (fieldX w) (fieldY w) (fieldN w)⟩ := by
  intro w hw
  have he := admits_formatD op (fieldX w) (fieldY w) (fieldN w)
  have hx := congrArg Fin.val (fieldX_formatD op (fieldX w) (fieldY w) (fieldN w))
  have hy := congrArg Fin.val (fieldY_formatD op (fieldX w) (fieldY w) (fieldN w))
  have hn := congrArg Fin.val (fieldN_formatD op (fieldX w) (fieldY w) (fieldN w))
  simp only [admits_F000, fieldX_val, fieldY_val, fieldN_val] at hw he hx hy hn
  exact (henc _ _ _).trans (BitVec.eq_of_toNat_eq (by omega))

@[inherit_doc spells_formatA]
theorem spells_formatXF (f : BitVec 8) {build : RegIdx → Instr} (henc : ∀ x, encode (build x) = formatXF op x f) :
    SpellsItsWords ⟨⟨0xF0FF#16, op ++ 0#4 ++ f⟩, fun w => build (fieldX w)⟩ := by
  intro w hw
  have he := admits_formatXF op (fieldX w) f
  have hx := congrArg Fin.val (fieldX_formatXF op (fieldX w) f)
  simp only [admits_F0FF, fieldX_val] at hw he hx
  exact (henc _).trans (BitVec.eq_of_toNat_eq (by omega))

end Formats

/-- Every row spells its words, in the map's order. -/
theorem opcodeTable_spells : ∀ r ∈ opcodeTable, SpellsItsWords r := by
  simp only [opcodeTable, List.forall_mem_cons]
  exact ⟨spells_fixed rfl, spells_fixed rfl,
    spells_formatA 0x1#4 fun _ => rfl, spells_formatA 0x2#4 fun _ => rfl,
    spells_formatXI 0x3#4 fun _ _ => rfl, spells_formatXI 0x4#4 fun _ _ => rfl,
    spells_formatXY 0x5#4 0x0#4 fun _ _ => rfl,
    spells_formatXI 0x6#4 fun _ _ => rfl, spells_formatXI 0x7#4 fun _ _ => rfl,
    spells_formatXY 0x8#4 0x0#4 fun _ _ => rfl, spells_formatXY 0x8#4 0x1#4 fun _ _ => rfl,
    spells_formatXY 0x8#4 0x2#4 fun _ _ => rfl, spells_formatXY 0x8#4 0x3#4 fun _ _ => rfl,
    spells_formatXY 0x8#4 0x4#4 fun _ _ => rfl, spells_formatXY 0x8#4 0x5#4 fun _ _ => rfl,
    spells_formatXY 0x8#4 0x6#4 fun _ _ => rfl, spells_formatXY 0x8#4 0x7#4 fun _ _ => rfl,
    spells_formatXY 0x8#4 0xE#4 fun _ _ => rfl,
    spells_formatXY 0x9#4 0x0#4 fun _ _ => rfl,
    spells_formatA 0xA#4 fun _ => rfl, spells_formatA 0xB#4 fun _ => rfl,
    spells_formatXI 0xC#4 fun _ _ => rfl,
    spells_formatD 0xD#4 fun _ _ _ => rfl,
    spells_formatXF 0xE#4 0x9E#8 fun _ => rfl, spells_formatXF 0xE#4 0xA1#8 fun _ => rfl,
    spells_formatXF 0xF#4 0x07#8 fun _ => rfl, spells_formatXF 0xF#4 0x0A#8 fun _ => rfl,
    spells_formatXF 0xF#4 0x15#8 fun _ => rfl, spells_formatXF 0xF#4 0x18#8 fun _ => rfl,
    spells_formatXF 0xF#4 0x1E#8 fun _ => rfl, spells_formatXF 0xF#4 0x29#8 fun _ => rfl,
    spells_formatXF 0xF#4 0x33#8 fun _ => rfl, spells_formatXF 0xF#4 0x55#8 fun _ => rfl,
    spells_formatXF 0xF#4 0x65#8 fun _ => rfl, List.forall_mem_nil _⟩

/-- Settles O2: what a word decodes to was built by a row that admits the word, and every row spells its words. -/
theorem encodeOfDecodeIsTheWord : Obligations.EncodeOfDecodeIsTheWord := by
  intro w i h
  obtain ⟨r, hr, hw, rfl⟩ := row_of_decodeWord h
  exact opcodeTable_spells r hr w hw

/-! ## One pattern or none (R83, R84, R87) -/

/-- Two rows that admit one word are the same row (R84). -/
theorem row_unique {r q : OpcodeRow} (hr : r ∈ opcodeTable) (hq : q ∈ opcodeTable) {w : Word}
    (hrw : r.pattern.admits w = true) (hqw : q.pattern.admits w = true) : q = r :=
  Option.some.inj ((find_row opcodeTable_wf hq hqw).symm.trans (find_row opcodeTable_wf hr hrw))

/-- A word is a decode fault exactly when no row admits it (R83, R88). -/
theorem decodeWord_eq_error_iff (w : Word) :
    decodeWord w = .error (.unknownOpcode w) ↔ ∀ r ∈ opcodeTable, ¬ r.pattern.admits w = true := by
  rw [← List.find?_eq_none, decodeWord]
  split
  next r hfound => simp [hfound]
  next hnone => simp [hnone]

/-- Settles O3: a row that admits the word is the only one and is the one decoding selects; without one, decoding
faults. -/
theorem decodeSelectsTheOnlyPatternOrFaults : Obligations.DecodeSelectsTheOnlyPatternOrFaults := by
  intro w
  by_cases h : ∃ r ∈ opcodeTable, r.pattern.admits w = true
  · obtain ⟨r, hr, hw⟩ := h
    exact .inl ⟨r, hr, hw, decodeWord_of_row hr hw, fun q hq hqw => congrArg _ (row_unique hr hq hw hqw)⟩
  · have hnone : ∀ r ∈ opcodeTable, ¬ r.pattern.admits w = true := fun r hr hw => h ⟨r, hr, hw⟩
    exact .inr ⟨fun r hr => Bool.eq_false_iff.2 (hnone r hr), (decodeWord_eq_error_iff w).2 hnone⟩

/-- Settles O4: that no row admits the word is a condition on its top nibble and the sub-opcode bits; at each of the
sixteen top nibbles it is the table's. -/
theorem illegalWordsAreThoseOfTheFamilyMap : Obligations.IllegalWordsAreThoseOfTheFamilyMap := by
  intro w
  rw [decodeWord_eq_error_iff]
  simp only [opcodeTable, List.forall_mem_cons, admits_F000, admits_F00F, admits_F0FF, admits_FFFF]
  have htop : w.toNat / 4096 < 16 := by omega
  generalize w.toNat / 4096 = top at htop ⊢
  interval_cases top <;> simp

/-- Settles O5: the words are the encodings of the instructions, and the two refused are among the illegal ones. -/
theorem sampleWordsDecodeAsTheTableSays : Obligations.SampleWordsDecodeAsTheTableSays :=
  ⟨decodeWord_encode .ret, decodeWord_encode (.jp 0x234#12),
    decodeWord_encode (.call 0x345#12), decodeWord_encode (.seVxNn 0xA 0x2F#8),
    decodeWord_encode (.sneVxNn 0xB 0x30#8), decodeWord_encode (.seVxVy 0xA 0xB),
    decodeWord_encode (.ldVxNn 0xC 0x01#8), decodeWord_encode (.addVxNn 0xD 0xFE#8),
    decodeWord_encode (.shrVx 0xA 0xB), decodeWord_encode (.sneVxVy 1 2),
    decodeWord_encode (.ldINnn 0x2EA#12), decodeWord_encode (.jpV0 0x210#12),
    decodeWord_encode (.rndVxNn 3 0x0F#8), decodeWord_encode (.drw 1 2 5),
    decodeWord_encode (.skp 5), decodeWord_encode (.ldVxMem 2),
    (illegalWordsAreThoseOfTheFamilyMap 0x5AB1#16).2 (by decide), StateOps.decodeWord_zero⟩

/-! ## The step at an illegal word (R88) -/

/-- The fetch leaves PC alone (R100). -/
@[simp] theorem fetch_pc (s : State) : (fetch s).2.pc = s.pc := by rw [fetch_eq]

/-- The fetch changes nothing but the events (R100). -/
theorem keepsAllBut_fetch (s : State) : Safety.KeepsAllBut [.diags] s (fetch s).2 := by
  rw [fetch_eq]
  simp [Frames.keepsAllBut_iff, readReg]

/-- A step that fetches no instruction recovers at the state the fetch leaves (R88, R100). -/
theorem step_of_error {s : State} {e : DecodeError} (h : decodeWord (fetch s).1 = .error e) :
    step s = .next (decodeFault (fetch s).1 (fetch s).2) := by
  simp only [step, h]

/-- Settles O8: the fetch and the recovery change nothing but PC and the events, and the recovery adds the last
event. -/
theorem illegalWordIsReportedAndSkipped : Obligations.IllegalWordIsReportedAndSkipped := by
  intro s h
  have hpc : (fetch s).2.pc = s.pc := fetch_pc s
  refine ⟨_, step_of_error h, pcAdvanced_of ?_, ?_, ?_, Scope.stepResult_of_error h⟩
  · rw [decodeFault, recover_pc, pcAfter, pcAfter, hpc]
  · rw [decodeFault, recover_diags, hpc]
  · exact Frames.keepsAllBut_mono
      (Frames.keepsAllBut_trans (keepsAllBut_fetch s) (Frames.keepsAllBut_recover _ _)) (by simp)

end Sys2Proof.Proofs.Encoding
end

section
/-! Control flow (40_control_flow.md): the fetch and the step, jumps, call and return, and runs, none of which stops. -/

namespace Sys2Proof.Proofs.ControlFlow

open Sys2Proof Sys2Proof.Machine

/-! ## Fetch and step (R56, R100) -/

/-- The high byte comes first (R56). -/
theorem composeWord_toNat (hi lo : Byte) : (composeWord hi lo).toNat = 256 * hi.toNat + lo.toNat := by
  rw [composeWord, BitVec.toNat_append, ← Nat.shiftLeft_add_eq_or_of_lt lo.isLt, Nat.shiftLeft_eq, Nat.mul_comm]

theorem fetch_fst (s : State) :
    (fetch s).1 = composeWord (Safety.portByte s s.pc.toNat) (Safety.portByte s (s.pc.toNat + 1)) := by
  rw [fetch_eq]

theorem fetch_snd (s : State) :
    (fetch s).2 = { s with diags := s.diags ++ Safety.boundsEvents .read [s.pc.toNat, s.pc.toNat + 1] } := by
  rw [fetch_eq]

theorem fetch_fst_toNat (s : State) :
    (fetch s).1.toNat = 256 * (Safety.portByte s s.pc.toNat).toNat + (Safety.portByte s (s.pc.toNat + 1)).toNat := by
  rw [fetch_fst, composeWord_toNat]

/-- Settles O7: the fetch is two reads of the port, whose bytes it composes and whose events it adds. -/
theorem fetchReadsTwoBytesHighFirst : Obligations.FetchReadsTwoBytesHighFirst := fun s =>
  ⟨fetch_fst_toNat s, fetch_snd s⟩

/-- A step that fetches an instruction executes it at the state the fetch leaves (R100). -/
theorem step_of_ok {s : State} {i : Instr} (h : decodeWord (fetch s).1 = .ok i) : step s = exec i (fetch s).2 := by
  simp only [step, h]

/-- Settles O6: the step adds nothing around the execution, and inside the store the fetch leaves the state alone. -/
theorem stepRunsTheDecodedInstruction : Obligations.StepRunsTheDecodedInstruction :=
  ⟨fun s _ h => ⟨step_of_ok h, fetch_snd s⟩, fun _ _ hin h => Store.step_of_fetch (fetch_inside hin) h⟩

/-! ## Nothing stops the engine (R100, R180, R188) -/

/-- Every instruction answers a next state. FX0A alone chooses between two of them at its top (R154). -/
theorem exec_answers (i : Instr) (s : State) : ∃ t, exec i s = .next t := by
  cases i with
  | ldVxK x =>
    change ∃ t, execLdVxK x s = .next t
    unfold execLdVxK
    split <;> exact ⟨_, rfl⟩
  | _ => exact ⟨_, rfl⟩

theorem step_answers (s : State) : ∃ t, step s = .next t := by
  cases h : decodeWord (fetch s).1 with
  | ok i => exact step_of_ok h ▸ exec_answers i (fetch s).2
  | error e => exact ⟨_, Encoding.step_of_error h⟩

theorem perform_answers (op : Operation) (s : State) : ∃ t, perform op s = .next t := by
  cases op with
  | step => exact step_answers s
  | _ => exact ⟨_, rfl⟩

/-- A run goes on from where its first operation ends. -/
theorem runOps_cons_of_next {op : Operation} {s t : State} (h : perform op s = .next t) (ops : List Operation) :
    runOps (op :: ops) s = runOps ops t := by
  simp only [runOps, h]

/-- Settles O10: each operation of the run answers a next state. -/
theorem everyRunAnswersANextState : Obligations.EveryRunAnswersANextState := by
  intro ops
  induction ops with
  | nil => exact fun s => ⟨s, rfl⟩
  | cons op ops ih =>
    intro s
    obtain ⟨t, ht⟩ := perform_answers op s
    exact runOps_cons_of_next ht ops ▸ ih t

/-! ## Return (R101) -/

theorem exec_ret_live {s : State} (h : 0 < s.sp.val) : exec .ret s = .next (popToPc s h) :=
  congrArg Host.Outcome.next (dif_pos h)

theorem exec_ret_empty {s : State} (h : s.sp.val = 0) : exec .ret s = .next (recover s (.stackUnderflow s.pc)) :=
  congrArg Host.Outcome.next (dif_neg (by omega))

/-- With `k + 1` live entries, the one popped is entry `k`. -/
theorem popToPc_pc_of_sp {s : State} (h : 0 < s.sp.val) {k : Fin Config.stackDepth} (hk : s.sp.val = k.val + 1) :
    (popToPc s h).pc = s.stack.get k := by
  simp [hk, Vector.get_eq_getElem]

/-- Settles O24: with no live entry the return reports, and otherwise it pops. -/
theorem retPopsOrReportsUnderflow : Obligations.RetPopsOrReportsUnderflow := by
  intro s
  obtain hempty | hlive := Nat.eq_zero_or_pos s.sp.val
  · have h := exec_ret_empty hempty
    exact ⟨_, h, Frames.keepsAllBut_execRet h, rfl, fun _ => ⟨rfl, pcAdvanced_of rfl, rfl⟩,
      fun k hk => absurd hk (by omega)⟩
  · have h := exec_ret_live hlive
    exact ⟨_, h, Frames.keepsAllBut_execRet h, rfl, fun hempty => absurd hempty hlive.ne',
      fun k hk => ⟨Nat.sub_eq_of_eq_add hk, popToPc_pc_of_sp hlive hk, rfl⟩⟩

/-! ## Call (R103) -/

theorem exec_call_free {s : State} (h : s.sp.val < Config.stackDepth) (nnn : Addr12) :
    exec (.call nnn) s = .next (setPc (push s (pcAfter s 1) h) (zextAddr nnn)) :=
  congrArg Host.Outcome.next (dif_pos h)

theorem exec_call_full {s : State} (h : s.sp.val = Config.stackDepth) (nnn : Addr12) :
    exec (.call nnn) s = .next (recover s (.stackOverflow s.pc)) :=
  congrArg Host.Outcome.next (dif_neg (by omega))

/-- A push writes the entry at SP and leaves the others. -/
theorem push_stack_get (s : State) (a : Word) (h : s.sp.val < Config.stackDepth) (k : Fin Config.stackDepth) :
    (push s a h).stack.get k = if s.sp.val = k.val then a else s.stack.get k := by
  simp only [push_stack, Vector.get_eq_getElem, Vector.getElem_set]

/-- Settles O25: with all entries live the call reports, and otherwise it pushes and jumps. -/
theorem callPushesOrReportsOverflow : Obligations.CallPushesOrReportsOverflow := by
  intro s nnn
  obtain hfree | hfull : s.sp.val < Config.stackDepth ∨ s.sp.val = Config.stackDepth :=
    Nat.lt_or_eq_of_le (Nat.le_of_lt_succ s.sp.isLt)
  · have h := exec_call_free hfree nnn
    refine ⟨_, h, Frames.keepsAllBut_execCall h, fun hfull => absurd hfull hfree.ne,
      fun k hk => ⟨congrArg (· + 1) hk, zextAddr_toNat nnn, rfl, ?pushed, ?others⟩⟩
    case pushed => rw [setPc_stack, push_stack_get, if_pos hk, pcAfter_toNat, Nat.one_mul]
    case others =>
      intro j hj
      rw [setPc_stack, push_stack_get, if_neg fun hsp => hj (Fin.ext (hsp.symm.trans hk))]
  · have h := exec_call_full hfull nnn
    exact ⟨_, h, Frames.keepsAllBut_execCall h, fun _ => ⟨rfl, rfl, pcAdvanced_of rfl, rfl⟩,
      fun k hk => absurd hk (by omega)⟩

/-! ## Call, then return (R101, R103) -/

/-- A return gives back what a push just before it pushed, wherever PC went between: SP is back, and the entry pushed
stays behind as a dead one (R31). -/
theorem exec_ret_of_push (s : State) (a b : Word) (h : s.sp.val < Config.stackDepth) :
    exec .ret (setPc (push s a h) b) = .next (setPc { s with stack := s.stack.set s.sp.val a h } a) := by
  have hlive : 0 < (setPc (push s a h) b).sp.val := Nat.succ_pos _
  have htop : (popToPc (setPc (push s a h) b) hlive).pc = a := by
    rw [popToPc_pc_of_sp hlive (k := ⟨s.sp.val, h⟩) rfl, setPc_stack, push_stack_get, if_pos rfl]
  have hpop : popToPc (setPc (push s a h) b) hlive = setPc { s with stack := s.stack.set s.sp.val a h } a :=
    congrArg (setPc { s with stack := s.stack.set s.sp.val a h }) htop
  rw [exec_ret_live hlive, hpop]

/-- Settles O26: the entry popped is the one the call pushed, and it lies above the live entries. -/
theorem callThenRetComesBack : Obligations.CallThenRetComesBack := by
  intro s t u nnn hfree hcall hret
  obtain rfl := Host.Outcome.next.inj ((exec_call_free hfree nnn).symm.trans hcall)
  obtain rfl := Host.Outcome.next.inj ((exec_ret_of_push s _ _ hfree).symm.trans hret)
  refine ⟨rfl, pcAdvanced_of rfl, rfl, fun k hk => ?_⟩
  exact (push_stack_get s _ hfree k).trans (if_neg hk.ne')

/-! ## Jumps (R102, R104) -/

/-- Format A as a number: the op nibble, then nnn (R81). -/
theorem formatA_toNat (op : BitVec 4) (nnn : Addr12) : (formatA op nnn).toNat = op.toNat * 0x1000 + nnn.toNat := by
  rw [formatA, BitVec.toNat_append, ← Nat.shiftLeft_add_eq_or_of_lt nnn.isLt, Nat.shiftLeft_eq]

theorem encode_jp_toNat (nnn : Addr12) : (encode (.jp nnn)).toNat = 0x1000 + nnn.toNat :=
  formatA_toNat 0x1#4 nnn

theorem encode_jpV0_toNat (nnn : Addr12) : (encode (.jpV0 nnn)).toNat = 0xB000 + nnn.toNat :=
  formatA_toNat 0xB#4 nnn

/-- A jump changes no part of the state. -/
theorem keepsAllBut_nil_setPc (s : State) (a : Word) : Safety.KeepsAllBut [] s (setPc s a) :=
  Frames.keepsAllBut_setPc (Frames.keepsAllBut_refl [] s) a

/-- A jump to PC changes nothing at all, PC included (R102). -/
theorem exec_jp_self {s : State} {nnn : Addr12} (h : nnn.toNat = s.pc.toNat) : exec (.jp nnn) s = .next s := by
  have hpc : zextAddr nnn = s.pc := BitVec.eq_of_toNat_eq ((zextAddr_toNat nnn).trans h)
  change Host.Outcome.next (setPc s (zextAddr nnn)) = _
  rw [hpc]
  rfl

/-- A self-jump lies inside the store with both of its bytes. At the last address the low byte would read as 0, while
the word of a jump to 0xFFF ends in 0xFF. -/
theorem selfJump_inside {s : State} {nnn : Addr12} (hdec : decodeWord (fetch s).1 = .ok (.jp nnn))
    (hself : nnn.toNat = s.pc.toNat) : s.pc.toNat + 1 < memSize := by
  by_contra hout
  have hlast : nnn.toNat = 0xFFF := by
    have hsize : memSize = 0x1000 := rfl
    omega
  have hlow : (Safety.portByte s (s.pc.toNat + 1)).toNat = 0 :=
    congrArg BitVec.toNat (StateOps.portByte_outside s (Nat.not_lt.1 hout))
  have hword : (fetch s).1.toNat = 0x1000 + nnn.toNat := by
    rw [← Encoding.encodeOfDecodeIsTheWord _ _ hdec, encode_jp_toNat]
  rw [fetch_fst_toNat, hlow] at hword
  omega

/-- A step at a self-jump fetches without an event, so it is the jump at the state itself (R102). -/
theorem step_selfJump {s : State} (h : Safety.SelfJump s) : step s = .next s := by
  obtain ⟨nnn, hdec, hself⟩ := h
  have hfetch := fetch_inside (selfJump_inside hdec hself)
  rw [step_of_ok hdec, hfetch, exec_jp_self hself]

/-- Settles O27: the jump writes PC only, and a self-jump writes to it what it holds. -/
theorem jumpSetsPcAndSelfJumpIsAFixedPoint : Obligations.JumpSetsPcAndSelfJumpIsAFixedPoint := by
  refine ⟨fun s nnn => ⟨encode_jp_toNat nnn, setPc s (zextAddr nnn), rfl, zextAddr_toNat nnn, ?inside,
    keepsAllBut_nil_setPc s _, fun hself => Host.Outcome.next.inj (exec_jp_self hself)⟩, fun s => step_selfJump⟩
  case inside =>
    rw [setPc_pc, zextAddr_toNat]
    exact nnn.isLt

/-- A 12-bit address and a byte never add up to 2^16, so the sum needs no reduction (R104). -/
theorem zextAddr_add_zextByte_toNat (nnn : Addr12) (b : Byte) :
    (zextAddr nnn + zextByte b).toNat = nnn.toNat + b.toNat := by
  rw [BitVec.toNat_add, zextAddr_toNat, zextByte_toNat, Nat.mod_eq_of_lt (by omega)]

/-- Settles O28: the sum with V[0] fits PC, and the jump writes PC only. -/
theorem jumpWithOffsetAddsV0 : Obligations.JumpWithOffsetAddsV0 := fun s nnn =>
  ⟨encode_jpV0_toNat nnn, _, rfl, zextAddr_add_zextByte_toNat nnn (readReg s 0), keepsAllBut_nil_setPc s _⟩

end Sys2Proof.Proofs.ControlFlow
end

section
/-! Skips (41_skips.md): PC moves by two words or by one, and nothing else changes. -/

namespace Sys2Proof.Proofs.Skips

open Sys2Proof Sys2Proof.Machine

/-- The Boolean an instruction tests may stand for any condition equivalent to it (R110). -/
theorem skipIf_movedBy_of_iff {c : Bool} {p : Prop} [Decidable p] (hc : c = true ↔ p) (s : State) :
    Safety.PcMovedBy (if p then 2 else 1) s (skipIf c s) := by
  simpa only [hc] using skipIf_movedBy c s

/-- An instruction whose meaning is a skip on `p` answers a next state, moved by `p`, with every part kept (R110). -/
theorem exec_skip_spec {i : Instr} {s : State} {c : Bool} {p : Prop} [Decidable p]
    (hexec : exec i s = .next (skipIf c s)) (hc : c = true ↔ p) :
    ∃ t, exec i s = .next t ∧ Safety.KeepsAllBut [] s t ∧ Safety.PcMovedBy (if p then 2 else 1) s t :=
  ⟨skipIf c s, hexec, Frames.keepsAllBut_skipIf c s, skipIf_movedBy_of_iff hc s⟩

/-! ## What each register skip tests (R111 to R114) -/

theorem exec_seVxNn (x : RegIdx) (nn : Byte) (s : State) :
    exec (.seVxNn x nn) s = .next (skipIf (readReg s x == nn) s) := rfl

theorem exec_sneVxNn (x : RegIdx) (nn : Byte) (s : State) :
    exec (.sneVxNn x nn) s = .next (skipIf (readReg s x != nn) s) := rfl

theorem exec_seVxVy (x y : RegIdx) (s : State) :
    exec (.seVxVy x y) s = .next (skipIf (readReg s x == readReg s y) s) := rfl

theorem exec_sneVxVy (x y : RegIdx) (s : State) :
    exec (.sneVxVy x y) s = .next (skipIf (readReg s x != readReg s y) s) := rfl

/-- Settles O29: each register skip is a skip on the Boolean form of its condition, an equality or its negation. -/
theorem registerSkipsMoveByFourOrTwo : Obligations.RegisterSkipsMoveByFourOrTwo := fun s x y nn =>
  ⟨exec_skip_spec (exec_seVxNn x nn s) beq_iff_eq, exec_skip_spec (exec_sneVxNn x nn s) bne_iff_ne,
    exec_skip_spec (exec_seVxVy x y s) beq_iff_eq, exec_skip_spec (exec_sneVxVy x y s) bne_iff_ne⟩

end Sys2Proof.Proofs.Skips
end

section
/-! Load, arithmetic, logic and shift (42_alu.md). Every instruction of the family is one of two shapes, a plain load of
V[x] or the flag and then V[x] (R120, R121): what each shape does is said once, and an instruction adds only the numbers
it loads. -/

namespace Sys2Proof.Proofs.Alu

open Sys2Proof Sys2Proof.Machine

/-! ## The two shapes (R120, R121) -/

theorem readReg_loadReg_self (s : State) (x : RegIdx) (b : Byte) : readReg (loadReg s x b) x = b :=
  readReg_writeReg_self s x b

theorem loadReg_frame (s : State) (x : RegIdx) (b : Byte) :
    Safety.PcAdvanced s (loadReg s x b) ∧ Safety.KeepsAllBut [.regs] s (loadReg s x b) ∧
      Safety.RegsKeptBut [x] s (loadReg s x b) :=
  ⟨pcAdvanced_of rfl, Frames.keepsAllBut_loadReg s x b, Frames.regsKeptBut_loadReg s x b⟩

/-- The result is written last, so it stays even with x = 15 (R121; D5, log 5). -/
theorem readReg_writeFlagThenReg_self (s : State) (f : Byte) (x : RegIdx) (b : Byte) :
    readReg (writeFlagThenReg s f x b) x = b :=
  readReg_writeReg_self _ x b

theorem readReg_writeFlagThenReg_flag (s : State) (f : Byte) {x : RegIdx} (b : Byte) (hx : x ≠ Config.flagReg) :
    readReg (writeFlagThenReg s f x b) Config.flagReg = f := by
  rw [writeFlagThenReg, readReg_advance, readReg_writeReg_ne _ b hx.symm, readReg_writeReg_self]

theorem writeFlagThenReg_frame (s : State) (f : Byte) (x : RegIdx) (b : Byte) :
    Safety.PcAdvanced s (writeFlagThenReg s f x b) ∧ Safety.KeepsAllBut [.regs] s (writeFlagThenReg s f x b) ∧
      Safety.RegsKeptBut [x, Config.flagReg] s (writeFlagThenReg s f x b) :=
  ⟨pcAdvanced_of rfl, Frames.keepsAllBut_writeFlagThenReg s f x b, Frames.regsKeptBut_writeFlagThenReg s f x b⟩

/-! ## Flags and results as numbers (R22, R128 to R132) -/

theorem flag_decide (p : Prop) [Decidable p] : flag (decide p) = if p then 1 else 0 := by
  simp only [flag, decide_eq_true_eq]

theorem flag_toNat (c : Bool) : (flag c).toNat = c.toNat := by
  cases c <;> rfl

theorem lowFlag_toNat (a : Byte) : (lowFlag a).toNat = a.toNat % 2 := by
  rw [lowFlag, flag_toNat, BitVec.getLsbD, Nat.toNat_testBit, pow_zero, Nat.div_one]

/-- A byte has no bit above bit 7, so bit 7 is what a division by 2^7 leaves (R132). -/
theorem highFlag_toNat (a : Byte) : (highFlag a).toNat = a.toNat / 2 ^ (Config.regWidth - 1) := by
  have hbit : (highFlag a).toNat = a.toNat / 2 ^ 7 % 2 := by
    rw [highFlag, flag_toNat, BitVec.getLsbD, Nat.toNat_testBit]
  exact hbit.trans (Nat.mod_eq_of_lt (by omega))

/-- The difference modulo 2^8, with the borrow added before the subtraction (R129, R131). -/
theorem sub_toNat (a b : Byte) :
    (a - b).toNat = (a.toNat + 2 ^ Config.regWidth - b.toNat) % 2 ^ Config.regWidth := by
  rw [BitVec.toNat_sub, ← Nat.sub_add_comm b.isLt.le, Nat.add_comm]

theorem shiftRight_one_toNat (a : Byte) : (a >>> 1).toNat = a.toNat / 2 := by
  rw [BitVec.toNat_ushiftRight, Nat.shiftRight_eq_div_pow, pow_one]

theorem shiftLeft_one_toNat (a : Byte) : (a <<< 1).toNat = a.toNat * 2 % 2 ^ Config.regWidth := by
  rw [BitVec.toNat_shiftLeft, Nat.shiftLeft_eq, pow_one]

/-! ## The loads without a flag (R122 to R127) -/

/-- Settles O31: each of the five is the load of V[x] with its own value. -/
theorem loadsAndLogicWriteOnlyVx : Obligations.LoadsAndLogicWriteOnlyVx := by
  intro s x y nn
  refine ⟨⟨loadReg s x nn, rfl, ?imm, loadReg_frame s x _⟩,
    ⟨loadReg s x (readReg s y), rfl, ?copy, loadReg_frame s x _⟩,
    ⟨loadReg s x (readReg s x ||| readReg s y), rfl, fun k => ?or, loadReg_frame s x _⟩,
    ⟨loadReg s x (readReg s x &&& readReg s y), rfl, fun k => ?and, loadReg_frame s x _⟩,
    ⟨loadReg s x (readReg s x ^^^ readReg s y), rfl, fun k => ?xor, loadReg_frame s x _⟩⟩
  case imm | copy => exact readReg_loadReg_self s x _
  case or => rw [readReg_loadReg_self, BitVec.getLsbD_or]
  case and => rw [readReg_loadReg_self, BitVec.getLsbD_and]
  case xor => rw [readReg_loadReg_self, BitVec.getLsbD_xor]

/-- Settles O32: the load of V[x] with a sum of bytes, which is the sum modulo 256. -/
theorem addByteWrapsWithoutFlag : Obligations.AddByteWrapsWithoutFlag := by
  intro s x nn
  refine ⟨loadReg s x (readReg s x + nn), rfl, ?sum, loadReg_frame s x _⟩
  case sum => rw [readReg_loadReg_self, BitVec.toNat_add]

/-! ## The flag-writing instructions (R128 to R132) -/

/-- Settles O33: V[x] receives the sum of bytes, and VF the carry of the same operands. -/
theorem addRegistersSetsCarry : Obligations.AddRegistersSetsCarry := by
  intro s x y
  refine ⟨writeFlagThenReg s (carryFlag (readReg s x) (readReg s y)) x (readReg s x + readReg s y), rfl, ?sum,
    fun hx => ?carry, writeFlagThenReg_frame s _ x _⟩
  case sum => rw [readReg_writeFlagThenReg_self, BitVec.toNat_add]
  case carry => rw [readReg_writeFlagThenReg_flag s _ _ hx, carryFlag, flag_decide]

/-- Both subtractions at once: `a` is the minuend and `b` the subtrahend, whichever registers they come from (R129,
R131). -/
theorem writeFlagThenReg_sub (s : State) (x : RegIdx) (a b : Byte) :
    (readReg (writeFlagThenReg s (greaterFlag a b) x (a - b)) x).toNat =
        (a.toNat + 2 ^ Config.regWidth - b.toNat) % 2 ^ Config.regWidth ∧
      (x ≠ Config.flagReg → readReg (writeFlagThenReg s (greaterFlag a b) x (a - b)) Config.flagReg =
        if a.toNat > b.toNat then 1 else 0) := by
  refine ⟨?difference, fun hx => ?greater⟩
  case difference => rw [readReg_writeFlagThenReg_self, sub_toNat]
  case greater => rw [readReg_writeFlagThenReg_flag s _ _ hx, greaterFlag, flag_decide]

/-- Settles O34: 8XY5 and 8XY7 are one subtraction with the operands exchanged. -/
theorem subtractionsSetStrictComparison : Obligations.SubtractionsSetStrictComparison := by
  intro s x y
  obtain ⟨hsub, hsubFlag⟩ := writeFlagThenReg_sub s x (readReg s x) (readReg s y)
  obtain ⟨hsubn, hsubnFlag⟩ := writeFlagThenReg_sub s x (readReg s y) (readReg s x)
  exact ⟨⟨_, rfl, hsub, hsubFlag, writeFlagThenReg_frame s _ x _⟩,
    ⟨_, rfl, hsubn, hsubnFlag, writeFlagThenReg_frame s _ x _⟩⟩

/-- Settles O35: V[x] receives its half or its double, and VF the bit that leaves the byte. -/
theorem shiftsCaptureTheBitShiftedOut : Obligations.ShiftsCaptureTheBitShiftedOut := by
  intro s x y
  refine ⟨⟨writeFlagThenReg s (lowFlag (readReg s x)) x (readReg s x >>> 1), rfl, ?half, fun hx => ?lowBit,
      writeFlagThenReg_frame s _ x _⟩,
    ⟨writeFlagThenReg s (highFlag (readReg s x)) x (readReg s x <<< 1), rfl, ?double, fun hx => ?highBit,
      writeFlagThenReg_frame s _ x _⟩⟩
  case half => rw [readReg_writeFlagThenReg_self, shiftRight_one_toNat]
  case lowBit => rw [readReg_writeFlagThenReg_flag s _ _ hx, lowFlag_toNat]
  case double => rw [readReg_writeFlagThenReg_self, shiftLeft_one_toNat]
  case highBit => rw [readReg_writeFlagThenReg_flag s _ _ hx, highFlag_toNat]

end Sys2Proof.Proofs.Alu
end

section
/-! Index register and store transfers (43_index_memory.md): the new values of I, and what a transfer does to each byte,
each register and the channel. A byte outside the store does not stop the others (20_memory.md R63). -/

namespace Sys2Proof.Proofs.IndexMemory

open Sys2Proof Sys2Proof.Machine

/-! ## Effective addresses and PC (R27, R54) -/

/-- Going on from the address of offset 0 is the effective address of the whole offset. -/
theorem effAddr_zero_add (s : State) (k : Nat) : effAddr s 0 + k = effAddr s k := rfl

/-- Effective addresses are not reduced, so different offsets have different ones. -/
theorem effAddr_ne (s : State) {j k : Nat} (h : j ≠ k) : effAddr s j ≠ effAddr s k :=
  fun he => h (Nat.add_left_cancel he)

/-- The addresses of V[0] to V[x], as a transfer forms them, are I to I + x in order (R145, R146). -/
theorem regsUpTo_map_effAddr (s : State) (x : RegIdx) :
    (regsUpTo x).map (fun r => effAddr s 0 + r.val) = (List.range (x.val + 1)).map (effAddr s) := by
  rw [← regsUpTo_map_val, List.map_map]
  rfl

/-- Going on after an operation that keeps PC advances PC from the state before it (R27). -/
theorem pcAdvanced_advance {s t : State} (h : t.pc = s.pc) : Safety.PcAdvanced s (advance t) :=
  pcAdvanced_of (by rw [advance_pc, pcAfter, h, pcAfter])

/-! ## The three digits (R144) -/

/-- A write changes no byte but its own (R53). -/
theorem memWrite_read_ne (s : State) {a a' : Nat} (b : Byte) (h : a' ≠ a) :
    (memWrite s a b).mem.read a' = s.mem.read a' := by
  rw [memWrite_read, if_neg fun hw => h hw.1]

theorem memWrite_read_self (s : State) {a : Nat} (b : Byte) (h : a < memSize) : (memWrite s a b).mem.read a = b := by
  rw [memWrite_read, if_pos ⟨rfl, h⟩]

theorem memWrite_diags (s : State) (a : Nat) (b : Byte) :
    (memWrite s a b).diags = s.diags ++ Safety.boundsEvents .write [a] := by
  rw [memWrite_rest]

theorem memWrite_pc (s : State) (a : Nat) (b : Byte) : (memWrite s a b).pc = s.pc := by
  rw [memWrite_rest]

/-- The two writes after the first one go to other addresses. -/
theorem storeDigits_read_hundreds (s : State) (b : Byte) (h : effAddr s 0 < memSize) :
    (storeDigits s b).mem.read (effAddr s 0) = hundreds b := by
  rw [storeDigits, memWrite_read_ne _ _ (effAddr_ne s (by decide)), memWrite_read_ne _ _ (effAddr_ne s (by decide)),
    memWrite_read_self _ _ h]

theorem storeDigits_read_tens (s : State) (b : Byte) (h : effAddr s 1 < memSize) :
    (storeDigits s b).mem.read (effAddr s 1) = tens b := by
  rw [storeDigits, memWrite_read_ne _ _ (effAddr_ne s (by decide)), memWrite_read_self _ _ h]

theorem storeDigits_read_units (s : State) (b : Byte) (h : effAddr s 2 < memSize) :
    (storeDigits s b).mem.read (effAddr s 2) = units b :=
  memWrite_read_self _ _ h

theorem storeDigits_read_other (s : State) (b : Byte) {a : Nat} (h : a ∉ [effAddr s 0, effAddr s 1, effAddr s 2]) :
    (storeDigits s b).mem.read a = s.mem.read a := by
  simp only [List.mem_cons, List.not_mem_nil, or_false, not_or] at h
  obtain ⟨h0, h1, h2⟩ := h
  rw [storeDigits, memWrite_read_ne _ _ h2, memWrite_read_ne _ _ h1, memWrite_read_ne _ _ h0]

/-- Each write reports for itself, so the events come in the order of the addresses (R66; D14, log 19). -/
theorem storeDigits_diags (s : State) (b : Byte) :
    (storeDigits s b).diags = s.diags ++ Safety.boundsEvents .write [effAddr s 0, effAddr s 1, effAddr s 2] := by
  rw [storeDigits, memWrite_diags, memWrite_diags, memWrite_diags, boundsEvents_cons _ _ [_, _],
    boundsEvents_cons _ _ [_], List.append_assoc, List.append_assoc]

theorem storeDigits_pc (s : State) (b : Byte) : (storeDigits s b).pc = s.pc := by
  rw [storeDigits, memWrite_pc, memWrite_pc, memWrite_pc]

/-- Settles O37: the three addresses differ, so each digit stored stays. -/
theorem decimalDigitsAreStoredAtI : Obligations.DecimalDigitsAreStoredAtI := by
  intro s x
  obtain ⟨hhundreds, htens, hunits⟩ := digits_toNat (readReg s x)
  refine ⟨advance (storeDigits s (readReg s x)), rfl, fun h => ?hundreds, fun h => ?tens, fun h => ?units,
    fun a ha => storeDigits_read_other s _ ha, storeDigits_diags s _, pcAdvanced_advance (storeDigits_pc s _),
    Frames.keepsAllBut_advance (Frames.keepsAllBut_storeDigits s _)⟩
  case hundreds => rw [advance_mem, storeDigits_read_hundreds s _ h, hhundreds]
  case tens => rw [advance_mem, storeDigits_read_tens s _ h, htens]
  case units => rw [advance_mem, storeDigits_read_units s _ h, hunits]

/-! ## Several registers (R145, R146) -/

theorem storeRegs_pc (base : Nat) (rs : List RegIdx) (s : State) : (storeRegs base rs s).pc = s.pc := by
  rw [storeRegs_rest]

/-- Settles O38: FX55 writes to the addresses of V[0] to V[x] and to no other. -/
theorem registersAreStoredFromI : Obligations.RegistersAreStoredFromI := by
  intro s x
  refine ⟨advance (storeRegs (effAddr s 0) (regsUpTo x) s), rfl, fun r hr hin => ?stored, fun a ha => ?other, ?events,
    pcAdvanced_advance (storeRegs_pc _ (regsUpTo x) s),
    Frames.keepsAllBut_advance (Frames.keepsAllBut_storeRegs _ (regsUpTo x) s)⟩
  case stored => exact storeRegs_read_mem ((mem_regsUpTo r x).2 hr) hin s
  case other => exact storeRegs_read_other (fun r hr => ha r ((mem_regsUpTo r x).1 hr)) s
  case events => rw [advance_diags, storeRegs_rest, regsUpTo_map_effAddr]

theorem loadRegs_pc (base : Nat) (rs : List RegIdx) (s : State) : (loadRegs base rs s).pc = s.pc := by
  rw [loadRegs_rest]

/-- FX65 loads a register up to x with what the port gives at its address (R52, R146). -/
theorem loadRegs_regsUpTo_le (s : State) {r x : RegIdx} (h : r ≤ x) :
    readReg (loadRegs (effAddr s 0) (regsUpTo x) s) r = Safety.portByte s (effAddr s r.val) := by
  rw [loadRegs_reg, if_pos ((mem_regsUpTo r x).2 h), effAddr_zero_add]

/-- Settles O39: the registers loaded are those up to x, each with the byte of the port. -/
theorem registersAreLoadedFromI : Obligations.RegistersAreLoadedFromI := by
  intro s x
  refine ⟨advance (loadRegs (effAddr s 0) (regsUpTo x) s), rfl, fun r hr hin => ?inside, fun r hr hout => ?outside,
    fun r hr => ?above, ?events, pcAdvanced_advance (loadRegs_pc _ (regsUpTo x) s),
    Frames.keepsAllBut_advance (Frames.keepsAllBut_loadRegs _ (regsUpTo x) s)⟩
  case inside => rw [readReg_advance, loadRegs_regsUpTo_le s hr, Safety.portByte, if_pos hin]
  case outside => rw [readReg_advance, loadRegs_regsUpTo_le s hr, StateOps.portByte_outside s hout]
  case above => exact Frames.regsKeptBut_loadRegs _ _ s r fun hmem => hr.not_ge ((mem_regsUpTo r x).1 hmem)
  case events => rw [advance_diags, loadRegs_rest, regsUpTo_map_effAddr]

/-! ## The index register (R140, R141, R143) -/

/-- An instruction that gives I a value and goes on changes nothing else. -/
theorem advance_setI_frame (s : State) (a : Word) :
    Safety.PcAdvanced s (advance (setI s a)) ∧ Safety.KeepsAllBut [.index] s (advance (setI s a)) :=
  ⟨pcAdvanced_of rfl, Frames.keepsAllBut_advance (Frames.keepsAllBut_setI s a)⟩

/-- Settles O36: the three write I and go on, each with its own value. -/
theorem indexRegisterWritesGiveTheirValue : Obligations.IndexRegisterWritesGiveTheirValue := by
  intro s x nnn
  refine ⟨⟨advance (setI s (zextAddr nnn)), rfl, zextAddr_toNat nnn, advance_setI_frame s _⟩,
    ⟨advance (setI s (s.i + zextByte (readReg s x))), rfl, ?sum, advance_setI_frame s _⟩,
    ⟨advance (setI s (glyphAddr (readReg s x))), rfl, glyphAddr_toNat _, advance_setI_frame s _⟩⟩
  case sum => rw [advance_i, setI_i, BitVec.toNat_add, zextByte_toNat]

end Sys2Proof.Proofs.IndexMemory
end

section
/-! Random number, keys and timers (44_random_keys_timers.md): the values CXNN may give, what the key and timer
instructions read and write, and the wait of FX0A, as an instruction and as a step. -/

namespace Sys2Proof.Proofs.RandomKeysTimers

open Sys2Proof Sys2Proof.Machine

/-! ## The random byte (R150, R157) -/

theorem exec_rndVxNn (x : RegIdx) (nn : Byte) (s : State) :
    exec (.rndVxNn x nn) s = .next (rndWith (Config.randByte s.draws) x nn s) := rfl

theorem readReg_rndWith_self (r : Byte) (x : RegIdx) (nn : Byte) (s : State) :
    readReg (rndWith r x nn s) x = r &&& nn :=
  readReg_writeReg_self s x (r &&& nn)

theorem and_toNat_le_right (r nn : Byte) : (r &&& nn).toNat ≤ nn.toNat := by
  rw [BitVec.toNat_and]
  exact Nat.and_le_right

/-- The bytes a mask lets through are those it leaves as they are. -/
theorem exists_and_eq_iff (nn v : Byte) : (∃ r : Byte, r &&& nn = v) ↔ v &&& nn = v := by
  constructor
  · rintro ⟨r, rfl⟩
    rw [BitVec.and_assoc, BitVec.and_self]
  · exact fun hv => ⟨v, hv⟩

/-- Settles O41: V[x] is the byte drawn under the mask, and the bytes under the mask are those it leaves as they are. -/
theorem randomResultsAreExactlyTheMaskedBytes : Obligations.RandomResultsAreExactlyTheMaskedBytes := by
  intro s x nn v
  refine ⟨exec_rndVxNn x nn s, ?_⟩
  simp only [readReg_rndWith_self]
  exact exists_and_eq_iff nn v

/-- Settles O40: what CXNN does with any byte drawn holds for the free one. -/
theorem randomByteIsMasked : Obligations.RandomByteIsMasked := by
  intro s x nn
  have hval := readReg_rndWith_self (Config.randByte s.draws) x nn s
  exact ⟨_, exec_rndVxNn x nn s, hval, hval ▸ and_toNat_le_right _ nn, rfl, pcAdvanced_of rfl,
    Frames.keepsAllBut_rndWith _ x nn s, Frames.regsKeptBut_rndWith _ x nn s⟩

/-! ## The key skips (R151, R152, R158) -/

theorem exec_skp (x : RegIdx) (s : State) :
    exec (.skp x) s = .next (skipIf (keyPressed s (keyIndex (readReg s x))) s) := rfl

theorem exec_sknp (x : RegIdx) (s : State) :
    exec (.sknp x) s = .next (skipIf (!keyPressed s (keyIndex (readReg s x))) s) := rfl

/-- The key tested is the one the low nibble names (R158; D6, log 6). -/
theorem keyPressed_keyIndex {b : Byte} {k : KeyIdx} (h : b.toNat % 2 ^ 4 = k.val) (s : State) :
    keyPressed s (keyIndex b) = s.keys.get k := by
  have hkey : keyIndex b = k := Fin.ext ((keyIndex_val b).trans h)
  rw [hkey, keyPressed]

/-- Settles O30: both instructions are skips on the slot of that key, the second on its negation. -/
theorem keySkipsTestTheKeyOfTheLowNibble : Obligations.KeySkipsTestTheKeyOfTheLowNibble := by
  intro s x k h
  have hkey := keyPressed_keyIndex h s
  refine ⟨Skips.exec_skip_spec (exec_skp x s) ?pressed, Skips.exec_skip_spec (exec_sknp x s) ?released⟩
  case pressed => rw [hkey]
  case released => rw [hkey, Bool.not_eq_true']

/-! ## The timers (R153, R155, R156) -/

/-- Settles O42: FX07 is the load of V[x] with DT, and the other two write a timer and go on. -/
theorem timerTransfersCopyTheByte : Obligations.TimerTransfersCopyTheByte := fun s x =>
  ⟨⟨loadReg s x s.dt, rfl, Alu.readReg_loadReg_self s x _, Alu.loadReg_frame s x _⟩,
    ⟨advance (setDt s (readReg s x)), rfl, rfl, pcAdvanced_of rfl,
      Frames.keepsAllBut_advance (Frames.keepsAllBut_setDt s _)⟩,
    ⟨advance (setSt s (readReg s x)), rfl, rfl, pcAdvanced_of rfl,
      Frames.keepsAllBut_advance (Frames.keepsAllBut_setSt s _)⟩⟩

/-! ## The key wait (R154) -/

/-- With a key pressed FX0A is the load of V[x] with its index. -/
theorem exec_ldVxK_of_firstKey {s : State} {k : KeyIdx} (h : firstKey s = some k) (x : RegIdx) :
    exec (.ldVxK x) s = .next (loadReg s x (BitVec.ofNat 8 k.val)) := by
  change execLdVxK x s = _
  simp only [execLdVxK, h, loadReg]

theorem exec_ldVxK_of_none_pressed {s : State} (h : ∀ k, s.keys.get k = false) (x : RegIdx) :
    exec (.ldVxK x) s = .next s := by
  change execLdVxK x s = _
  simp only [execLdVxK, firstKey_eq_none.2 h]

theorem execResult_completed_of_pressed {s : State} {k : KeyIdx} (h : s.keys.get k = true) (i : Instr) :
    execResult i s = .completed := by
  refine Scope.completed_of_ne_waiting fun hwait => ?_
  obtain ⟨-, hnone⟩ := (Scope.execResult_eq_waiting_iff i s).1 hwait
  exact Bool.false_ne_true ((hnone k).symm.trans h)

/-- A key index fits a byte. -/
theorem keyByte_toNat (k : KeyIdx) : (BitVec.ofNat 8 k.val).toNat = k.val := by
  rw [BitVec.toNat_ofNat, Nat.mod_eq_of_lt (k.isLt.trans (by decide))]

/-- Settles O43: the first key is the least pressed one, and there is none exactly when no key is pressed. -/
theorem keyWaitTakesTheLeastPressedKey : Obligations.KeyWaitTakesTheLeastPressedKey := by
  intro s x
  refine ⟨fun k hk hleast => ⟨execResult_completed_of_pressed hk _, _,
      exec_ldVxK_of_firstKey (firstKey_eq_some hk hleast) x, ?index, Alu.loadReg_frame s x _⟩,
    fun hnone => ⟨exec_ldVxK_of_none_pressed hnone x, (Scope.execResult_eq_waiting_iff _ s).2 ⟨⟨x, rfl⟩, hnone⟩⟩⟩
  case index => rw [Alu.readReg_loadReg_self, keyByte_toNat]

/-! ## The step that waits (R54, R154) -/

/-- The low byte of the word fetched is what the port gives at PC + 1 (R56). -/
theorem fieldNn_fetch (s : State) : fieldNn (fetch s).1 = Safety.portByte s (s.pc.toNat + 1) := by
  apply BitVec.eq_of_toNat_eq
  rw [Encoding.fieldNn_toNat, ControlFlow.fetch_fst_toNat, Nat.mul_add_mod, Nat.mod_eq_of_lt (BitVec.isLt _)]

/-- A word whose low byte is not 0 was fetched with both bytes inside the store (R52). -/
theorem fetch_inside_of_low_byte {s : State} (h : fieldNn (fetch s).1 ≠ 0) : s.pc.toNat + 1 < memSize := by
  by_contra hout
  exact h ((fieldNn_fetch s).trans (StateOps.portByte_outside s (Nat.not_lt.1 hout)))

theorem fieldNn_of_decodeWord_ldVxK {w : Word} {x : RegIdx} (h : decodeWord w = .ok (.ldVxK x)) :
    fieldNn w = 0x0A#8 := by
  rw [← Encoding.encodeOfDecodeIsTheWord w _ h]
  exact fieldNn_formatXI 0xF#4 x 0x0A#8

/-- A step that fetches FX0A fetches without an event: the low byte 0x0A lies inside the store. -/
theorem fetch_snd_of_ldVxK {s : State} {x : RegIdx} (h : decodeWord (fetch s).1 = .ok (.ldVxK x)) :
    (fetch s).2 = s := by
  have hlow : fieldNn (fetch s).1 ≠ 0 := by
    rw [fieldNn_of_decodeWord_ldVxK h]
    decide
  rw [fetch_inside (fetch_inside_of_low_byte hlow)]

/-- Settles O12: a waiting step executes FX0A with no key pressed, at the state itself. -/
theorem aWaitingStepChangesNothing : Obligations.AWaitingStepChangesNothing := by
  intro s hwait
  obtain ⟨⟨x, hdec⟩, hnone⟩ := (Scope.stepResult_eq_waiting_iff s).1 hwait
  rw [ControlFlow.step_of_ok hdec, fetch_snd_of_ldVxK hdec, exec_ldVxK_of_none_pressed hnone]

end Sys2Proof.Proofs.RandomKeysTimers
end

section
/-! Display (45_display.md): the clear, the sprite compositing unit as a whole, which toggles the cells under the sprite's
1 bits, DXYN, and what two identical draws do. -/

namespace Sys2Proof.Proofs.Display

open Sys2Proof Sys2Proof.Machine

/-! ## The clear (R160) -/

theorem exec_cls (s : State) : exec .cls s = .next (advance (setFb s clearFb)) := rfl

theorem cell_clearFb (r : FbRow) (c : FbCol) : cell clearFb r c = false := by
  simp [cell, clearFb, Vector.get_eq_getElem]

/-- Settles O44: the clear framebuffer has no lit cell, and it is the only part set. -/
theorem clearMakesEveryCellZero : Obligations.ClearMakesEveryCellZero := fun s =>
  ⟨_, exec_cls s, cell_clearFb, pcAdvanced_of rfl, Frames.keepsAllBut_advance (Frames.keepsAllBut_setFb s clearFb)⟩

/-! ## The compositing unit (R161, R164, R165) -/

/-- A sprite has fewer than 16 rows, so no two fall on one framebuffer row (R164). -/
theorem row_lt_of_mem_range (n : RowCount) : ∀ row ∈ List.range n.val, row < 16 :=
  fun _ hrow => (List.mem_range.1 hrow).trans n.isLt

/-- A cell is lit after the draw exactly when either it was lit or the sprite covers it, not both. -/
theorem cell_blit (x0 y0 : Byte) (n : RowCount) (base : Nat) (s : State) (r : FbRow) (c : FbCol) :
    cell (blit x0 y0 n base s).2.fb r c = true ↔
      ¬ (cell s.fb r c = true ↔ Safety.SpriteCovers s x0.toNat y0.toNat n.val base r c) := by
  rw [spriteCovers_iff]
  exact cell_blitRows _ _ base _ List.nodup_range (row_lt_of_mem_range n) false s r c

theorem blit_collides_iff (x0 y0 : Byte) (n : RowCount) (base : Nat) (s : State) :
    (blit x0 y0 n base s).1 = true ↔ Safety.SpriteHits s x0.toNat y0.toNat n.val base := by
  simp only [Safety.SpriteHits, spriteCovers_iff]
  exact (coll_blitRows _ _ base _ List.nodup_range (row_lt_of_mem_range n) false s).trans
    (or_iff_right Bool.false_ne_true)

theorem blit_pc (x0 y0 : Byte) (n : RowCount) (base : Nat) (s : State) : (blit x0 y0 n base s).2.pc = s.pc := by
  rw [blit, blitRows_rest]

theorem blit_diags (x0 y0 : Byte) (n : RowCount) (base : Nat) (s : State) :
    (blit x0 y0 n base s).2.diags = s.diags ++ Safety.boundsEvents .read ((List.range n.val).map (base + ·)) := by
  rw [blit, blitRows_rest]

/-! ## DXYN (R162) -/

theorem exec_drw (x y : RegIdx) (n : RowCount) (s : State) :
    exec (.drw x y n) s =
      .next (advance (writeReg (blit (readReg s x) (readReg s y) n (effAddr s 0) s).2 Config.flagReg
        (flag (blit (readReg s x) (readReg s y) n (effAddr s 0) s).1))) := rfl

/-- Settles O45: DXYN is the compositing unit at V[x], V[y] and I, then VF with its collision bit. -/
theorem drawXorsTheSpriteAndReportsCollision : Obligations.DrawXorsTheSpriteAndReportsCollision := by
  intro s x y n
  have hcoll := blit_collides_iff (readReg s x) (readReg s y) n (effAddr s 0) s
  refine ⟨_, exec_drw x y n s, fun r c => cell_blit _ _ n _ s r c, fun hhits => ?hit, fun hmisses => ?miss,
    blit_diags _ _ n _ s, IndexMemory.pcAdvanced_advance (blit_pc _ _ n _ s),
    Frames.keepsAllBut_execDrw (exec_drw x y n s), Frames.regsKeptBut_execDrw (exec_drw x y n s)⟩
  case hit => rw [readReg_advance, readReg_writeReg_self, hcoll.2 hhits]; rfl
  case miss => rw [readReg_advance, readReg_writeReg_self, Bool.eq_false_iff.2 (mt hcoll.1 hmisses)]; rfl

/-! ## Two identical draws (R164) -/

/-- A draw changes no sprite byte, so the identical sprite covers the same cells again (R165). -/
theorem spriteCovers_blit (x0 y0 : Byte) (n : RowCount) (base : Nat) (s : State) (r : FbRow) (c : FbCol) :
    Safety.SpriteCovers (blit x0 y0 n base s).2 x0.toNat y0.toNat n.val base r c ↔
      Safety.SpriteCovers s x0.toNat y0.toNat n.val base r c := by
  simp only [Safety.SpriteCovers, Safety.portByte, Store.blit_mem]

/-- Toggling by the same coverage twice toggles nothing. -/
theorem blit_blit_fb (x0 y0 : Byte) (n : RowCount) (base : Nat) (s : State) :
    (blit x0 y0 n base (blit x0 y0 n base s).2).2.fb = s.fb := by
  refine framebuffer_ext fun r c => Bool.eq_iff_iff.2 ?_
  rw [cell_blit, spriteCovers_blit, cell_blit]
  tauto

/-- What the second draw finds lit under the sprite is what the first found unlit there. -/
theorem blit_blit_collides_iff (x0 y0 : Byte) (n : RowCount) (base : Nat) (s : State) :
    (blit x0 y0 n base (blit x0 y0 n base s).2).1 = true ↔
      ∃ r c, cell s.fb r c = false ∧ Safety.SpriteCovers s x0.toNat y0.toNat n.val base r c := by
  rw [blit_collides_iff]
  refine exists_congr fun r => exists_congr fun c => ?_
  rw [spriteCovers_blit]
  refine and_congr_left fun hcovers => ?_
  rw [cell_blit, iff_true_right hcovers, Bool.not_eq_true]

theorem blit_clear_no_collision {s : State} (hclear : ∀ r c, cell s.fb r c = false) (x0 y0 : Byte) (n : RowCount)
    (base : Nat) : (blit x0 y0 n base s).1 = false := by
  refine Bool.eq_false_iff.2 fun hcoll => ?_
  obtain ⟨r, c, hlit, -⟩ := (blit_collides_iff x0 y0 n base s).1 hcoll
  exact Bool.false_ne_true ((hclear r c).symm.trans hlit)

/-- Coordinates wrap and none is clipped, so every 1 bit of a sprite covers some cell (R163). -/
theorem exists_spriteCovers_iff (s : State) (x y n base : Nat) :
    (∃ r c, Safety.SpriteCovers s x y n base r c) ↔
      ∃ row col, row < n ∧ col < 8 ∧ (Safety.portByte s (base + row)).getLsbD (7 - col) = true := by
  constructor
  · rintro ⟨r, c, row, col, hrow, hcol, -, -, hbit⟩
    exact ⟨row, col, hrow, hcol, hbit⟩
  · rintro ⟨row, col, hrow, hcol, hbit⟩
    exact ⟨rowOf (y + row), colOf (x + col), row, col, hrow, hcol, rfl, rfl, hbit⟩

/-- Settles O46: the second draw undoes the first and collides where the first found a 0; on a clear framebuffer that is
wherever the sprite has a 1 bit. -/
theorem drawingTwiceRestoresTheFramebuffer : Obligations.DrawingTwiceRestoresTheFramebuffer := by
  intro s x0 y0 n base
  refine ⟨blit_blit_fb x0 y0 n base s, blit_blit_collides_iff x0 y0 n base s,
    fun hclear => ⟨blit_clear_no_collision hclear x0 y0 n base, ?second⟩⟩
  case second =>
    rw [blit_blit_collides_iff, ← exists_spriteCovers_iff s x0.toNat y0.toNat n.val base]
    simp only [hclear, true_and]

end Sys2Proof.Proofs.Display
end

section
/-! Exceptions (60_exceptions.md): the events each instruction emits, which are appended to those before, and how many a
step can emit. -/

namespace Sys2Proof.Proofs.Exceptions

open Sys2Proof Sys2Proof.Machine

/-! ## The events of an instruction (R186, R187) -/

/-- The events executing an instruction emits, oldest first: a stack fault, the bounds faults of its data accesses in
their order, or none. -/
def eventsOf : Instr → State → List Diag
  | .ret, s => if 0 < s.sp.val then [] else [.stackUnderflow s.pc]
  | .call _, s => if s.sp.val < Config.stackDepth then [] else [.stackOverflow s.pc]
  | .drw _ _ n, s => Safety.boundsEvents .read ((List.range n.val).map (effAddr s))
  | .ldBVx _, s => Safety.boundsEvents .write [effAddr s 0, effAddr s 1, effAddr s 2]
  | .ldMemVx x, s => Safety.boundsEvents .write ((List.range (x.val + 1)).map (effAddr s))
  | .ldVxMem x, s => Safety.boundsEvents .read ((List.range (x.val + 1)).map (effAddr s))
  | _, _ => []

theorem execRet_diags {s t : State} (h : execRet s = .next t) : t.diags = s.diags ++ eventsOf .ret s := by
  obtain rfl := Host.Outcome.next.inj h
  by_cases hsp : 0 < s.sp.val <;> simp [eventsOf, hsp]

theorem execCall_diags {nnn : Addr12} {s t : State} (h : execCall nnn s = .next t) :
    t.diags = s.diags ++ eventsOf (.call nnn) s := by
  obtain rfl := Host.Outcome.next.inj h
  by_cases hsp : s.sp.val < Config.stackDepth <;> simp [eventsOf, hsp]

/-- An instruction appends its events to the channel and does nothing else to it (R184). -/
theorem exec_diags {i : Instr} {s t : State} (h : exec i s = .next t) : t.diags = s.diags ++ eventsOf i s := by
  cases i with
  | ret => exact execRet_diags h
  | call nnn => exact execCall_diags h
  | drw x y n =>
    obtain rfl := Host.Outcome.next.inj h
    exact Display.blit_diags _ _ n _ s
  | ldBVx x =>
    obtain rfl := Host.Outcome.next.inj h
    exact IndexMemory.storeDigits_diags s _
  | ldMemVx x =>
    obtain rfl := Host.Outcome.next.inj h
    rw [eventsOf, ← IndexMemory.regsUpTo_map_effAddr, advance_diags, storeRegs_rest]
  | ldVxMem x =>
    obtain rfl := Host.Outcome.next.inj h
    rw [eventsOf, ← IndexMemory.regsUpTo_map_effAddr, advance_diags, loadRegs_rest]
  | _ =>
    have hkept : t.diags = s.diags := Frames.exec_keepsAllBut h .diags (by simp [Frames.mayChange])
    exact hkept.trans (List.append_nil _).symm

/-! ## Events are never withdrawn (R184) -/

theorem fetch_diags_prefix (s : State) : s.diags <+: (fetch s).2.diags := by
  rw [ControlFlow.fetch_snd]
  exact List.prefix_append _ _

theorem exec_diags_prefix {i : Instr} {s t : State} (h : exec i s = .next t) : s.diags <+: t.diags :=
  ⟨eventsOf i s, (exec_diags h).symm⟩

theorem step_diags_prefix {s t : State} (h : step s = .next t) : s.diags <+: t.diags := by
  obtain ⟨i, -, hexec⟩ | ⟨e, -, rfl⟩ := Frames.step_cases h
  · exact (fetch_diags_prefix s).trans (exec_diags_prefix hexec)
  · exact (fetch_diags_prefix s).trans (List.prefix_append _ _)

/-- No operation but `step()` touches the channel, `reset()` included (R42, R184). -/
theorem perform_diags_prefix {op : Operation} {s t : State} (h : perform op s = .next t) : s.diags <+: t.diags :=
  match op, h with
  | .step, h => step_diags_prefix h
  | .tickTimers, rfl | .setKeys _, rfl | .readFramebuffer, rfl | .reset, rfl => List.prefix_rfl

/-- Settles O16: every operation keeps the events emitted before the run at the front of the channel. -/
theorem eventsAreNeverWithdrawn : Obligations.EventsAreNeverWithdrawn := fun _ s _ h =>
  Store.runOps_keeps (P := fun u => s.diags <+: u.diags)
    (fun hop hprefix => hprefix.trans (perform_diags_prefix hop)) h List.prefix_rfl

/-! ## How many events a step emits (R187) -/

/-- Accesses at offsets from I report at most once each. -/
theorem boundsEvents_range_length (k : Access) (n : Nat) (s : State) :
    (Safety.boundsEvents k ((List.range n).map (effAddr s))).length ≤ n := by
  simpa using boundsEvents_length k ((List.range n).map (effAddr s))

/-- The most are the sixteen accesses of FX55 and FX65 with x = 15. -/
theorem eventsOf_length_le (i : Instr) (s : State) : (eventsOf i s).length ≤ 16 := by
  cases i with
  | ret | call nnn => rw [eventsOf]; split <;> simp
  | drw x y n => exact (boundsEvents_range_length _ _ s).trans n.isLt.le
  | ldBVx x => exact (boundsEvents_length _ _).trans (by simp)
  | ldMemVx x | ldVxMem x => exact (boundsEvents_range_length _ _ s).trans x.isLt
  | _ => exact Nat.zero_le 16

theorem fieldNn_formatXF (op : BitVec 4) (x : RegIdx) (f : BitVec 8) : fieldNn (formatXF op x f) = f :=
  fieldNn_formatXI op x f

/-- The row count is part of the low byte. -/
theorem rowCount_eq_zero_of_low_byte {op : BitVec 4} {x y : RegIdx} {n : RowCount}
    (h : fieldNn (formatD op x y n) = 0) : n = 0 := by
  have hlow : (formatD op x y n).toNat % 256 = 0 := by rw [← Encoding.fieldNn_toNat, h]; rfl
  have hn : (formatD op x y n).toNat % 16 = n.val := by rw [← Encoding.fieldN_val, fieldN_formatD]
  exact Fin.ext (by rw [Fin.val_zero]; omega)

/-- A word whose low byte is 0 makes no data access, so all it can report is a stack fault: DXY0 reads no row, and the
low bytes of FX33, FX55 and FX65 are not 0. -/
theorem eventsOf_length_le_one_of_low_byte {i : Instr} (h : fieldNn (encode i) = 0) (s : State) :
    (eventsOf i s).length ≤ 1 := by
  cases i with
  | ret | call nnn => rw [eventsOf]; split <;> simp
  | drw x y n =>
    obtain rfl := rowCount_eq_zero_of_low_byte h
    exact Nat.zero_le 1
  | ldBVx x | ldMemVx x | ldVxMem x => exact absurd ((fieldNn_formatXF _ x _).symm.trans h) (by decide)
  | _ => exact Nat.zero_le 1

/-- The fetch makes two accesses. -/
theorem fetch_diags_length_le (s : State) : (fetch s).2.diags.length ≤ s.diags.length + 2 := by
  rw [ControlFlow.fetch_snd, List.length_append]
  exact Nat.add_le_add_left (boundsEvents_length _ _) _

theorem exec_diags_length {i : Instr} {s t : State} (h : exec i s = .next t) :
    t.diags.length = s.diags.length + (eventsOf i s).length := by
  rw [exec_diags h, List.length_append]

/-- A fetch that reports gives a word whose low byte is 0: the byte at PC + 1 lies outside the store (R52). -/
theorem low_byte_of_fetch_outside {s : State} {i : Instr} (hdec : decodeWord (fetch s).1 = .ok i)
    (hout : memSize ≤ s.pc.toNat + 1) : fieldNn (encode i) = 0 := by
  rw [Encoding.encodeOfDecodeIsTheWord _ _ hdec, RandomKeysTimers.fieldNn_fetch, StateOps.portByte_outside s hout]

/-- Settles O17: inside the store only the instruction reports, at most 16 events; outside it the fetch reports at most
two, and a stack fault or the decode fault adds at most one. -/
theorem aStepEmitsAtMostSixteenEvents : Obligations.AStepEmitsAtMostSixteenEvents := by
  intro s t h
  have hfetch := fetch_diags_length_le s
  obtain ⟨i, hdec, hexec⟩ | ⟨e, -, rfl⟩ := Frames.step_cases h
  · obtain hin | hout := Nat.lt_or_ge (s.pc.toNat + 1) memSize
    · rw [fetch_inside hin] at hexec
      rw [exec_diags_length hexec]
      exact Nat.add_le_add_left (eventsOf_length_le i s) _
    · have hevents := eventsOf_length_le_one_of_low_byte (low_byte_of_fetch_outside hdec hout) (fetch s).2
      rw [exec_diags_length hexec]
      omega
  · rw [decodeFault, recover_diags, List.length_append, List.length_singleton]
    omega

end Sys2Proof.Proofs.Exceptions
end

section
/-! Reset, boot and the limits of a quiet step (70_reset_and_hazards.md). -/

namespace Sys2Proof.Proofs.ResetHazards

open Sys2Proof Sys2Proof.Machine

/-! ## Reset (R42, R210, R211) -/

theorem perform_reset (s : State) : perform .reset s = .next (resetEngine s) := rfl

theorem readReg_resetEngine (s : State) (r : RegIdx) : readReg (resetEngine s) r = 0 :=
  Vector.get_replicate _ _ r

theorem resetEngine_stack_get (s : State) (k : Fin Config.stackDepth) : (resetEngine s).stack.get k = 0 :=
  Vector.get_replicate _ _ k

theorem resetEngine_keys_get (s : State) (k : KeyIdx) : (resetEngine s).keys.get k = false :=
  Vector.get_replicate _ _ k

theorem resetEngine_fb (s : State) : (resetEngine s).fb = clearFb := rfl

/-- Settles O50: the vectors and the framebuffer are replicated zeros, and nothing but the store, the events and the
draw counter comes from the state before. -/
theorem resetGivesEveryRegisterItsValue : Obligations.ResetGivesEveryRegisterItsValue := fun s =>
  ⟨resetEngine s, perform_reset s, rfl, readReg_resetEngine s, rfl, rfl, rfl, rfl, resetEngine_stack_get s,
    fun r c => resetEngine_fb s ▸ Display.cell_clearFb r c, resetEngine_keys_get s, rfl⟩

/-- Settles O51: the three parts that come from the state before. -/
theorem resetLeavesTheStore : Obligations.ResetLeavesTheStore := fun s =>
  ⟨resetEngine s, perform_reset s, rfl, rfl, rfl⟩

/-! ## Boot (R59, R60, R214) -/

/-- An image that fits boots, into the reset engine over the store that holds it from PROGRAM_ORIGIN on. -/
theorem boot_eq_some {bytes : List Byte} (h : bytes.length ≤ maxImage) :
    boot bytes = some { State.reset with mem := placeBytes [] programOrigin.toNat bytes } := by
  rw [boot, Store.loadImage_eq_some h]
  rfl

/-- Settles O54: PROGRAM_ORIGIN and the address after it lie inside the store and hold the image's first two bytes. -/
theorem bootedMachineFetchesTheImageFirst : Obligations.BootedMachineFetchesTheImageFirst := by
  intro hi lo rest hfits
  refine ⟨_, boot_eq_some (bytes := hi :: lo :: rest) hfits, rfl, ?fetch⟩
  case fetch =>
    have hhi : (placeBytes [] programOrigin.toNat (hi :: lo :: rest)).read programOrigin.toNat = hi :=
      Store.placeBytes_read_inside [] programOrigin.toNat (k := 0) (bytes := hi :: lo :: rest) (by simp)
    have hlo : (placeBytes [] programOrigin.toNat (hi :: lo :: rest)).read (programOrigin.toNat + 1) = lo :=
      Store.placeBytes_read_inside [] programOrigin.toNat (k := 1) (bytes := hi :: lo :: rest) (by simp)
    have hpc : State.reset.pc = programOrigin := rfl
    rw [fetch_inside (by decide : programOrigin.toNat + 1 < memSize), hpc, hhi, hlo]

/-! ## The limits of a quiet step (R219) -/

/-- Accesses at offsets from I that end inside the store report nothing. -/
theorem boundsEvents_range_inside (k : Access) {n : Nat} {s : State} (h : s.i.toNat + n ≤ memSize) :
    Safety.boundsEvents k ((List.range n).map (effAddr s)) = [] := by
  refine boundsEvents_inside k fun a ha => ?_
  obtain ⟨j, hj, rfl⟩ := List.mem_map.1 ha
  have hjn : j < n := List.mem_range.1 hj
  rw [effAddr]
  omega

/-- Within the limits an instruction emits no event: each limit empties the events of the instruction it names, and no
other instruction has any. -/
theorem eventsOf_eq_nil {i : Instr} {s : State} (hcall : ∀ nnn, i = .call nnn → s.sp.val < Config.stackDepth)
    (hret : i = .ret → 0 < s.sp.val) (hdrw : ∀ x y n, i = .drw x y n → s.i.toNat + n.val ≤ memSize)
    (hbcd : ∀ x, i = .ldBVx x → s.i.toNat + 2 < memSize)
    (hregs : ∀ x, i = .ldMemVx x ∨ i = .ldVxMem x → s.i.toNat + x.val < memSize) :
    Exceptions.eventsOf i s = [] := by
  cases i with
  | ret => exact if_pos (hret rfl)
  | call nnn => exact if_pos (hcall nnn rfl)
  | drw x y n => exact boundsEvents_range_inside .read (hdrw x y n rfl)
  | ldBVx x => exact boundsEvents_range_inside .write (n := 3) (hbcd x rfl)
  | ldMemVx x => exact boundsEvents_range_inside .write (hregs x (.inl rfl))
  | ldVxMem x => exact boundsEvents_range_inside .read (hregs x (.inr rfl))
  | _ => rfl

/-- Settles O18: inside the store the fetch emits nothing, and within the limits neither does the instruction. -/
theorem aStepWithinTheLimitsIsQuiet : Obligations.AStepWithinTheLimitsIsQuiet := by
  intro s t i hin hdec hcall hret hdrw hbcd hregs hstep
  have hexec : exec i s = .next t := by rw [← hstep, ControlFlow.step_of_ok hdec, fetch_inside hin]
  have hevents : Exceptions.eventsOf i s = [] := eventsOf_eq_nil hcall hret hdrw hbcd hregs
  rw [Safety.Quiet, Exceptions.exec_diags hexec, hevents, List.append_nil]

end Sys2Proof.Proofs.ResetHazards
end
